-- ==== Sys2Proof/Word.lean ====
section
/-! DEFINITION. The words of the machine: storage bytes, 64-bit register contents and addresses,
32-bit instruction words, register numbers (spec/00_scope.md R8, R10, R14; 10_state.md R20). -/

namespace Sys2Proof

/-- A byte of storage, 8 bits (R8, R25). -/
abbrev Byte := BitVec 8

/-- The content of a general purpose register, an effective address, the `pc`: 64 bits
(`XLEN = 64`, R10; R13, R20, R23). -/
abbrev Word := BitVec 64

/-- One instruction: a 32-bit word (R50). -/
abbrev InstrWord := BitVec 32

/-- A register number 0 to 31: the value of a field RT, RTp, RA or RB, which selects `x[0]` to
`x[31]` directly (R58). -/
abbrev Reg := Fin 32

end Sys2Proof
end

