-- ==== Sys2Proof/Syntax.lean ====
section
/-! DEFINITION. The 28 load instructions (spec/00_scope.md R1), one constructor for each row of
spec/opcode_table.json, with the operand fields of their forms (spec/30_encoding.md R51 to R54). -/

namespace Sys2Proof

/-- The 28 mnemonics of R1, in the order of spec/opcode_table.json. -/
inductive Mnemonic where
  | lbz | lbzx | lbzu | lbzux
  | lhz | lhzx | lhzu | lhzux
  | lha | lhax | lhau | lhaux
  | lwz | lwzx | lwzu | lwzux
  | lwa | lwax | lwaux
  | ld | ldx | ldu | ldux
  | lq
  | lhbrx | lwbrx | ldbrx
  | lmw
deriving DecidableEq, Repr

/-- A decoded instruction: its mnemonic and the values of its fields. `rt`, `rtp`, `ra`, `rb` are
register numbers (R58); `d`, `ds`, `dq` are the raw displacement fields of 16, 14 and 12 bits
(R51 to R53). -/
inductive Instr where
  /-- Load Byte and Zero, D-form (R100). -/
  | lbz (rt ra : Reg) (d : BitVec 16)
  /-- Load Byte and Zero Indexed, X-form (R101). -/
  | lbzx (rt ra rb : Reg)
  /-- Load Byte and Zero with Update, D-form (R102). -/
  | lbzu (rt ra : Reg) (d : BitVec 16)
  /-- Load Byte and Zero with Update Indexed, X-form (R103). -/
  | lbzux (rt ra rb : Reg)
  /-- Load Halfword and Zero, D-form (R104). -/
  | lhz (rt ra : Reg) (d : BitVec 16)
  /-- Load Halfword and Zero Indexed, X-form (R105). -/
  | lhzx (rt ra rb : Reg)
  /-- Load Halfword and Zero with Update, D-form (R106). -/
  | lhzu (rt ra : Reg) (d : BitVec 16)
  /-- Load Halfword and Zero with Update Indexed, X-form (R107). -/
  | lhzux (rt ra rb : Reg)
  /-- Load Halfword Algebraic, D-form (R108). -/
  | lha (rt ra : Reg) (d : BitVec 16)
  /-- Load Halfword Algebraic Indexed, X-form (R109). -/
  | lhax (rt ra rb : Reg)
  /-- Load Halfword Algebraic with Update, D-form (R110). -/
  | lhau (rt ra : Reg) (d : BitVec 16)
  /-- Load Halfword Algebraic with Update Indexed, X-form (R111). -/
  | lhaux (rt ra rb : Reg)
  /-- Load Word and Zero, D-form (R112). -/
  | lwz (rt ra : Reg) (d : BitVec 16)
  /-- Load Word and Zero Indexed, X-form (R113). -/
  | lwzx (rt ra rb : Reg)
  /-- Load Word and Zero with Update, D-form (R114). -/
  | lwzu (rt ra : Reg) (d : BitVec 16)
  /-- Load Word and Zero with Update Indexed, X-form (R115). -/
  | lwzux (rt ra rb : Reg)
  /-- Load Word Algebraic, DS-form (R116). -/
  | lwa (rt ra : Reg) (ds : BitVec 14)
  /-- Load Word Algebraic Indexed, X-form (R117). -/
  | lwax (rt ra rb : Reg)
  /-- Load Word Algebraic with Update Indexed, X-form (R118). -/
  | lwaux (rt ra rb : Reg)
  /-- Load Doubleword, DS-form (R119). -/
  | ld (rt ra : Reg) (ds : BitVec 14)
  /-- Load Doubleword Indexed, X-form (R120). -/
  | ldx (rt ra rb : Reg)
  /-- Load Doubleword with Update, DS-form (R121; heading corrected, 90_conflicts.md C1). -/
  | ldu (rt ra : Reg) (ds : BitVec 14)
  /-- Load Doubleword with Update Indexed, X-form (R122). -/
  | ldux (rt ra rb : Reg)
  /-- Load Quadword, DQ-form (R123). -/
  | lq (rtp ra : Reg) (dq : BitVec 12)
  /-- Load Halfword Byte-Reverse Indexed, X-form (R126). -/
  | lhbrx (rt ra rb : Reg)
  /-- Load Word Byte-Reverse Indexed, X-form (R127). -/
  | lwbrx (rt ra rb : Reg)
  /-- Load Doubleword Byte-Reverse Indexed, X-form (R128). -/
  | ldbrx (rt ra rb : Reg)
  /-- Load Multiple Word, D-form (R130). -/
  | lmw (rt ra : Reg) (d : BitVec 16)
deriving DecidableEq, Repr

/-- The mnemonic of an instruction. -/
def Instr.mnemonic : Instr → Mnemonic
  | .lbz .. => .lbz
  | .lbzx .. => .lbzx
  | .lbzu .. => .lbzu
  | .lbzux .. => .lbzux
  | .lhz .. => .lhz
  | .lhzx .. => .lhzx
  | .lhzu .. => .lhzu
  | .lhzux .. => .lhzux
  | .lha .. => .lha
  | .lhax .. => .lhax
  | .lhau .. => .lhau
  | .lhaux .. => .lhaux
  | .lwz .. => .lwz
  | .lwzx .. => .lwzx
  | .lwzu .. => .lwzu
  | .lwzux .. => .lwzux
  | .lwa .. => .lwa
  | .lwax .. => .lwax
  | .lwaux .. => .lwaux
  | .ld .. => .ld
  | .ldx .. => .ldx
  | .ldu .. => .ldu
  | .ldux .. => .ldux
  | .lq .. => .lq
  | .lhbrx .. => .lhbrx
  | .lwbrx .. => .lwbrx
  | .ldbrx .. => .ldbrx
  | .lmw .. => .lmw

end Sys2Proof
end

