-- ==== Sys2Proof/Config.lean ====
section
/-! DEFINITION. What the spec leaves to the implementation or to the launch of a run: the open
parameters `accessible` and `align_fault` (spec/00_scope.md section 4, spec/92_eei_decisions.md D5,
D13) as plain data, and the values the model names where the spec gives none for reset
(spec/10_state.md R30; notes/assumptions 4 to 9). -/

namespace Sys2Proof.Config

/-- A run of byte addresses `first` to `last`, both included. -/
structure Region where
  first : Nat
  last  : Nat
deriving DecidableEq, Repr

/-- The parameter `accessible(a)` (R44, D13) as plain data. Every predicate on the 2^64 byte
addresses is an `onlyIn` of some list. -/
inductive Accessible where
  /-- Every byte address is accessible: the spec's default (R44). -/
  | everywhere
  /-- Exactly the addresses that lie in one of the regions are accessible. -/
  | onlyIn (regions : List Region)
deriving DecidableEq, Repr

/-- The parameter `align_fault(m, EA, n)` (R41, D5) as plain data: a condition on the mnemonic, the
effective address and the operand size. What each holds of is said once, by
`Sys2Proof.Machine.AlignFault.holds` (Sys2Proof/Machine/Ops.lean). -/
inductive AlignFault where
  /-- No access invokes the alignment error handler: the spec's default (R41). -/
  | never
  /-- `EA mod n != 0`: every naturally misaligned access. -/
  | misaligned
  /-- `EA mod k != 0`. -/
  | notMultipleOf (k : Nat)
  /-- The instruction is `m`. -/
  | mnemonicIs (m : Mnemonic)
  /-- The operand has `n` bytes. -/
  | sizeIs (n : Nat)
  /-- The EA lies in the region. -/
  | within (r : Region)
  | negation (p : AlignFault)
  | both (p q : AlignFault)
  | either (p q : AlignFault)
deriving DecidableEq, Repr

/-- The open parameters of a run that the step depends on (R84). They are constant over a run. -/
structure Params where
  accessible : Accessible
  alignFault : AlignFault
deriving DecidableEq, Repr

/-- The spec's own defaults: everything accessible, no alignment fault (R41, R44). -/
def Params.default : Params := { accessible := .everywhere, alignFault := .never }

/-- What a storage address that the memory list does not name reads as.
DESIGN CHOICE (notes/assumptions/9.md), unsafe: the spec gives storage no value at launch. -/
def unlistedByte : Byte := 0

/-- The content of every general purpose register in `State.reset`.
DESIGN CHOICE (notes/assumptions/6.md), unsafe: the spec gives none. -/
def resetGpr : Word := 0

/-- The `pc` of `State.reset`.
DESIGN CHOICE (notes/assumptions/7.md), unsafe: the spec gives no reset vector. -/
def resetPc : Word := 0

/-- The endian mode of `State.reset`, Big-Endian mode.
DESIGN CHOICE (notes/assumptions/8.md), unsafe: the spec gives none. -/
def resetLE : Bool := false

end Sys2Proof.Config
end

