-- ==== Sys2Proof/Machine/State.lean ====
section
/-! DEFINITION. The state of the machine (spec/10_state.md R31: registers, `pc`, endian mode,
storage, fault status, and nothing else), with the launch parameters a step depends on (R84), the
fault records (spec/60_exceptions.md R200 to R204), the refusals (R208) and the state after reset. -/

namespace Sys2Proof.Machine

/-- A fault record, the content of the `fault` component after a raise (R26, R200). As an outcome of
a step it says that the state already holds that fault and has no further step (R200). Every
constructor is safe: the run stops there, nothing is claimed of what follows. -/
inductive Fault where
  /-- The system illegal instruction error handler: `lq` with RTp = RA (R201, R125). Records the
  address of the instruction. Raised by `lq`. Safe. -/
  | illegalInstruction (pc : Word)
  /-- An invalid instruction form other than `lq` with RTp = RA (R202, R62). Records the address of
  the instruction. Raised by the eleven update forms, `lq` and `lmw`. Safe. -/
  | invalidForm (pc : Word)
  /-- The system alignment error handler (R203): without an address for `lmw` in Little-Endian mode
  (R131), with the effective address where the parameter `align_fault` holds (R41). Raised by every
  load. Safe. -/
  | alignment (pc : Word) (ea : Option Word)
  /-- A byte of the operand, or of the instruction word, is not accessible (R204, R44, R50). Records
  the address of the instruction and of the access. Raised by every load and by fetch. Safe. -/
  | storageFault (pc ea : Word)
deriving DecidableEq, Repr

/-- The address of the faulting instruction that a record carries (R200). -/
def Fault.pc : Fault → Word
  | .illegalInstruction pc => pc
  | .invalidForm pc => pc
  | .alignment pc _ => pc
  | .storageFault pc _ => pc

/-- A refusal: the spec gives the situation no meaning, there is no next state and no fault record
(R208). All are safe: a claim about a run that reaches one is not provable. -/
inductive Refusal where
  /-- An instruction that has no meaning in the model, by its mnemonic. Raised by no arm of `exec`:
  every instruction of the opcode table has its meaning. Safe. -/
  | notModelled (mnemonic : String)
  /-- The word at `pc` matches no row of the opcode table, reserved bits included (R65, R61). Raised
  by decoding in `step`. Safe. -/
  | notInScope
  /-- A storage operand would run past address 2^64 - 1 (R43). Raised by every load. Safe. -/
  | addressWrap
  /-- `pc` is not a multiple of 4 (R23). Raised by fetch. Safe. -/
  | pcMisaligned
  /-- `pc = 2^64 - 4`: the successor address would wrap to 0 (R23). Raised by fetch. Safe. -/
  | pcWrap
deriving DecidableEq, Repr

/-- Storage as a list of (address, byte), in the canonical form `Memory.wf`
(Sys2Proof/Machine/Ops.lean). An address that is not listed reads as `Config.unlistedByte`. -/
abbrev Memory := List Host.Cell

/-- The state of the machine. -/
structure State where
  /-- `x[0]` to `x[31]`, the general purpose registers (R20, R21). -/
  x : Vector Word 32
  /-- The address of the instruction to be executed (R23). -/
  pc : Word
  /-- The endian mode: `false` Big-Endian, `true` Little-Endian (R24). -/
  le : Bool
  /-- Storage, for instructions and data (R25). -/
  mem : Memory
  /-- The fault status: the record of a raise, never cleared (R26). -/
  fault : Option Fault
  /-- The launch parameters `accessible` and `align_fault`, constant over a run (R84, R252). -/
  params : Config.Params
deriving DecidableEq, Repr

/-- What executing an instruction, or a step, answers. -/
abbrev Result := Host.Outcome State Fault Refusal

/-- A launch state (R252, R254): every component is an argument of the run but the fault status,
which is `none` (premise `NoFault`). -/
def State.launch (x : Vector Word 32) (pc : Word) (le : Bool) (mem : Memory)
    (params : Config.Params) : State :=
  { x := x, pc := pc, le := le, mem := mem, fault := none, params := params }

/-- The state the host calls reset. The spec has no reset (R250): this is the one launch state with
the values that notes/assumptions 4 to 9 name (DESIGN CHOICE, unsafe), the spec's default
parameters, and nothing listed in storage. -/
def State.reset : State :=
  State.launch (Vector.replicate 32 Config.resetGpr) Config.resetPc Config.resetLE []
    Config.Params.default

end Sys2Proof.Machine
end

