-- ==== Sys2Proof/Machine/Ops.lean ====
section
/-! DEFINITION. The named operations over registers, storage and the fault status: reading and
writing a register (spec/10_state.md R20, R21), reading and writing a byte of storage (R25),
`MemRead` (spec/20_memory.md R36, R37), raising a fault (spec/60_exceptions.md R200) and completing
a load (spec/40_load_common.md R70 phases 6 to 9). -/

namespace Sys2Proof.Machine

/-! ### Registers and the program counter -/

/-- The content of `x[r]`; no register is hard-wired (R21). -/
def State.gpr (s : State) (r : Reg) : Word := s.x.get r

/-- `x[r] <- v`; register 0 is an ordinary register (R21). -/
def State.setGpr (s : State) (r : Reg) (v : Word) : State := { s with x := s.x.set r.val v }

/-- `x[r] <- w0`, `x[r+1] <- w1`, ... for the words of the list, the register number counting up and
stopping after 31 (R130, R82). -/
def State.setGprsFrom (s : State) (r : Nat) : List Word → State
  | [] => s
  | w :: ws => if h : r < 32 then (s.setGpr ⟨r, h⟩ w).setGprsFrom (r + 1) ws else s

/-- `pc <- pc +64 4` (R23, R79). -/
def State.advance (s : State) : State := { s with pc := s.pc + 4 }

/-! ### Storage, byte by byte -/

/-- Storage in canonical form: addresses below 2^64 and strictly rising, no entry equal to what an
unlisted address reads as. -/
abbrev Memory.wf (m : Memory) : Prop :=
  m.Pairwise (fun p q => p.1 < q.1) ∧ ∀ c ∈ m, c.1 < 2 ^ 64 ∧ c.2 ≠ Config.unlistedByte

/-- `mem[a]` (R25). -/
def Memory.read : Memory → Nat → Byte
  | [], _ => Config.unlistedByte
  | (k, b) :: rest, a => if k = a then b else Memory.read rest a

/-- Storage with `b` at address `a`, in canonical form. No instruction writes storage (R46): this is
how a launch is built (R254). -/
def Memory.write : Memory → Nat → Byte → Memory
  | [], a, b => if b = Config.unlistedByte then [] else [(a, b)]
  | (k, c) :: rest, a, b =>
    if a < k then
      if b = Config.unlistedByte then (k, c) :: rest else (a, b) :: (k, c) :: rest
    else if a = k then
      if b = Config.unlistedByte then rest else (a, b) :: rest
    else (k, c) :: Memory.write rest a b

/-- Storage with the bytes at `a`, `a+1`, ... -/
def Memory.writeBytes (m : Memory) (a : Nat) : List Byte → Memory
  | [] => m
  | b :: bs => Memory.writeBytes (m.write a b) (a + 1) bs

/-- The bytes `mem[a]`, ..., `mem[a+n-1]` in address order. -/
def Memory.bytesAt (m : Memory) (a n : Nat) : List Byte :=
  (List.range n).map fun i => m.read (a + i)

/-! ### The value of a storage operand (R37) -/

/-- The bytes as a number, the first byte most significant (Big-Endian, R37 with `LE = 0`). -/
def bigValue (bs : List Byte) : Nat := bs.foldl (fun acc b => acc * 256 + b.toNat) 0

/-- The bytes as a number, the first byte least significant (Little-Endian, R37 with `LE = 1`). -/
def littleValue : List Byte → Nat
  | [] => 0
  | b :: bs => b.toNat + 256 * littleValue bs

/-- `value(a, n)`: the storage operand of `n` bytes at `a` in the byte order of the mode (R37).
The byte significance in each mode is the spec's D4 (notes/assumptions/11.md). -/
def storageValue (le : Bool) (m : Memory) (a n : Nat) : BitVec (8 * n) :=
  BitVec.ofNat (8 * n) (if le then littleValue (m.bytesAt a n) else bigValue (m.bytesAt a n))

/-! ### The launch parameters -/

/-- The address lies in the region. -/
def inRegion (r : Config.Region) (a : Nat) : Bool := r.first ≤ a && a ≤ r.last

/-- `accessible(a)` (R44). -/
def accessible (p : Config.Params) (a : Nat) : Bool :=
  match p.accessible with
  | .everywhere => true
  | .onlyIn rs => rs.any (inRegion · a)

/-- What a condition of the parameter `align_fault` says of an access (R41). -/
def AlignFault.holds (m : Mnemonic) (ea : Word) (n : Nat) : Config.AlignFault → Bool
  | .never => false
  | .misaligned => ea.toNat % n != 0
  | .notMultipleOf k => ea.toNat % k != 0
  | .mnemonicIs m' => m == m'
  | .sizeIs n' => n == n'
  | .within r => inRegion r ea.toNat
  | .negation p => !AlignFault.holds m ea n p
  | .both p q => AlignFault.holds m ea n p && AlignFault.holds m ea n q
  | .either p q => AlignFault.holds m ea n p || AlignFault.holds m ea n q

/-- `align_fault(m, EA, n)` (R41). -/
def alignFault (p : Config.Params) (m : Mnemonic) (ea : Word) (n : Nat) : Bool :=
  AlignFault.holds m ea n p.alignFault

/-! ### Raising a fault -/

/-- `raise F(info)` (R200): the fault component becomes the record, everything else keeps its value.
The state has no further step: `step` answers the record from then on. There is no vector, no saved
state and no return in the spec (R200, R207; notes/assumptions/3.md). -/
def raise (f : Fault) (s : State) : Result := .next { s with fault := some f }

/-- Why an access gives no value. -/
inductive Stop where
  /-- The access raises a fault (R200). -/
  | raise (f : Fault)
  /-- The access is refused (R208). -/
  | refuse (r : Refusal)
deriving DecidableEq, Repr

/-- Carry on with the value of an access, or end the instruction as the access says (R70): no
register and no `pc` has changed before. -/
def withValue {α : Type} (v : Except Stop α) (s : State) (k : α → Result) : Result :=
  match v with
  | .ok a => k a
  | .error (.raise f) => raise f s
  | .error (.refuse r) => .refused r

/-! ### Reading storage -/

/-- `MemRead(a, n)` on behalf of the instruction `m` (R36): the tests in the order R36 gives them,
then the value. `a + n ≤ 2^64`, so the bytes are `mem[a]`, ..., `mem[a+n-1]` without a wrap. -/
def memRead (m : Mnemonic) (a : Word) (n : Nat) (s : State) : Except Stop (BitVec (8 * n)) :=
  if 2 ^ 64 < a.toNat + n then .error (.refuse .addressWrap)
  else if alignFault s.params m a n then .error (.raise (.alignment s.pc (some a)))
  else if (List.range n).any (fun i => !accessible s.params (a.toNat + i)) then
    .error (.raise (.storageFault s.pc a))
  else .ok (storageValue s.le s.mem a.toNat n)

/-- `count` words from `a` up, one `MemRead` of 4 bytes for each, in ascending order, the address
stepping by `+64 4`; the first that raises or refuses ends it (R130). -/
def readWords (m : Mnemonic) (a : Word) (s : State) : Nat → Except Stop (List (BitVec 32))
  | 0 => .ok []
  | count + 1 =>
    match memRead m a 4 s with
    | .error e => .error e
    | .ok v =>
      match readWords m (a + 4) s count with
      | .error e => .error e
      | .ok vs => .ok (v :: vs)

/-! ### Loads -/

/-- A load without update (R70 phases 6 to 9): read `n` bytes at `ea`, fill the target with what
`fill` makes of them, advance. -/
def loadInto (m : Mnemonic) (n : Nat) (fill : BitVec (8 * n) → Word) (rt : Reg) (ea : Word)
    (s : State) : Result :=
  withValue (memRead m ea n s) s fun v => .next ((s.setGpr rt (fill v)).advance)

/-- A load with update (R75): as `loadInto`, and `x[RA] <- EA`. The form is invalid when RA = 0 or
RA = RT (R62), tested before anything else (R70 phase 3); then nothing is read or written. -/
def loadIntoUpdate (m : Mnemonic) (n : Nat) (fill : BitVec (8 * n) → Word) (rt ra : Reg)
    (ea : Word) (s : State) : Result :=
  if ra = 0 ∨ ra = rt then raise (.invalidForm s.pc) s
  else
    withValue (memRead m ea n s) s fun v =>
      .next (((s.setGpr rt (fill v)).setGpr ra ea).advance)

end Sys2Proof.Machine
end

