-- ==== Sys2Proof/Machine/Operands.lean ====
section
/-! DEFINITION. The operand forms: displacements (spec/30_encoding.md R55 to R57), bases and
effective addresses (spec/40_load_common.md R71 to R75), and what fills a target register
(R76 to R78). Every sum is modulo 2^64 (spec/00_scope.md R13). -/

namespace Sys2Proof.Machine

/-! ### Displacements -/

/-- D-form displacement `sext_16(D)` (R55). -/
def dispD (d : BitVec 16) : Word := d.signExtend 64

/-- DS-form displacement `sext_16(DS || 0b00)` (R56). -/
def dispDS (ds : BitVec 14) : Word := (ds ++ 0#2).signExtend 64

/-- DQ-form displacement `sext_16(DQ || 0b0000)` (R57). -/
def dispDQ (dq : BitVec 12) : Word := (dq ++ 0#4).signExtend 64

/-! ### Effective addresses -/

/-- `(RA|0)`: 0 when the RA field is 0, else `x[RA]` (R6; the spec's GK4, PRESUMED,
notes/assumptions/10.md). -/
def baseOrZero (ra : Reg) (s : State) : Word := if ra = 0 then 0 else s.gpr ra

/-- EA of the D-form without update (R71). -/
def eaD (ra : Reg) (d : BitVec 16) (s : State) : Word := baseOrZero ra s + dispD d

/-- EA of the DS-form without update (R72). -/
def eaDS (ra : Reg) (ds : BitVec 14) (s : State) : Word := baseOrZero ra s + dispDS ds

/-- EA of the DQ-form (R73). -/
def eaDQ (ra : Reg) (dq : BitVec 12) (s : State) : Word := baseOrZero ra s + dispDQ dq

/-- EA of the X-form without update (R74): the index is the whole of `x[RB]`, `x[0]` included. -/
def eaX (ra rb : Reg) (s : State) : Word := baseOrZero ra s + s.gpr rb

/-- EA of the D-form with update (R75): the base is `x[RA]` itself. -/
def eaUpdateD (ra : Reg) (d : BitVec 16) (s : State) : Word := s.gpr ra + dispD d

/-- EA of the DS-form with update (R75). -/
def eaUpdateDS (ra : Reg) (ds : BitVec 14) (s : State) : Word := s.gpr ra + dispDS ds

/-- EA of the X-form with update (R75). -/
def eaUpdateX (ra rb : Reg) (s : State) : Word := s.gpr ra + s.gpr rb

/-! ### Filling the target register -/

/-- `zext_N(v)`: zeros above the operand (R76). -/
def zext {n : Nat} (v : BitVec n) : Word := v.setWidth 64

/-- `sext_N(v)`: copies of the operand's most significant bit above it (R77). -/
def sext {n : Nat} (v : BitVec n) : Word := v.signExtend 64

/-- The `n` bytes of a value, the most significant first. -/
def bytesOfValue (n : Nat) (v : BitVec (8 * n)) : List Byte :=
  (List.range n).map fun k => v.extractLsb' (8 * (n - 1 - k)) 8

/-- `brev_n(v)`: byte `k` of the result is byte `n-1-k` of `v` (R14, R78). -/
def brev (n : Nat) (v : BitVec (8 * n)) : BitVec (8 * n) :=
  BitVec.ofNat (8 * n) (littleValue (bytesOfValue n v))

end Sys2Proof.Machine
end

