-- ==== Sys2Proof/Machine/Flags.lean ====
section
/-! DEFINITION. Flags: there are none. Under every one of the 28 instructions the source says
"Special Registers Altered: None"; no instruction in scope writes or reads a flag, a condition code,
a predicate or a special purpose register, and a load never sets a carry, an overflow or a
comparison result (spec/10_state.md R27, spec/00_scope.md R11). The file stands here so that a
reader who looks for a flag computation finds this sentence. -/
end

