-- ==== Sys2Proof/Machine/LoadByte.lean ====
section
/-! DEFINITION. The byte loads `lbz`, `lbzx`, `lbzu`, `lbzux` (spec/41_load_byte.md). -/

namespace Sys2Proof.Machine

/-- Load Byte and Zero (R100). -/
def execLbz (rt ra : Reg) (d : BitVec 16) (s : State) : Result :=
  loadInto .lbz 1 zext rt (eaD ra d s) s

/-- Load Byte and Zero Indexed (R101). -/
def execLbzx (rt ra rb : Reg) (s : State) : Result :=
  loadInto .lbzx 1 zext rt (eaX ra rb s) s

/-- Load Byte and Zero with Update (R102). -/
def execLbzu (rt ra : Reg) (d : BitVec 16) (s : State) : Result :=
  loadIntoUpdate .lbzu 1 zext rt ra (eaUpdateD ra d s) s

/-- Load Byte and Zero with Update Indexed (R103). -/
def execLbzux (rt ra rb : Reg) (s : State) : Result :=
  loadIntoUpdate .lbzux 1 zext rt ra (eaUpdateX ra rb s) s

end Sys2Proof.Machine
end

