-- ==== Sys2Proof/Machine/LoadByteReverse.lean ====
section
/-! DEFINITION. The byte-reverse loads `lhbrx`, `lwbrx`, `ldbrx` (spec/46_load_byte_reverse.md). The
value that `MemRead` returns in the current mode is reversed (R129; 90_conflicts.md C5, D21). -/

namespace Sys2Proof.Machine

/-- Load Halfword Byte-Reverse Indexed (R126). -/
def execLhbrx (rt ra rb : Reg) (s : State) : Result :=
  loadInto .lhbrx 2 (fun v => zext (brev 2 v)) rt (eaX ra rb s) s

/-- Load Word Byte-Reverse Indexed (R127). -/
def execLwbrx (rt ra rb : Reg) (s : State) : Result :=
  loadInto .lwbrx 4 (fun v => zext (brev 4 v)) rt (eaX ra rb s) s

/-- Load Doubleword Byte-Reverse Indexed (R128). -/
def execLdbrx (rt ra rb : Reg) (s : State) : Result :=
  loadInto .ldbrx 8 (fun v => zext (brev 8 v)) rt (eaX ra rb s) s

end Sys2Proof.Machine
end

