-- ==== Sys2Proof/Machine/LoadDoubleword.lean ====
section
/-! DEFINITION. The doubleword loads `ld`, `ldx`, `ldu`, `ldux` (spec/44_load_doubleword.md). The
operand fills the whole register: there is nothing to extend, and `zext` of 64 bits is the value. -/

namespace Sys2Proof.Machine

/-- Load Doubleword (R119). -/
def execLd (rt ra : Reg) (ds : BitVec 14) (s : State) : Result :=
  loadInto .ld 8 zext rt (eaDS ra ds s) s

/-- Load Doubleword Indexed (R120). -/
def execLdx (rt ra rb : Reg) (s : State) : Result :=
  loadInto .ldx 8 zext rt (eaX ra rb s) s

/-- Load Doubleword with Update (R121; heading corrected, 90_conflicts.md C1). -/
def execLdu (rt ra : Reg) (ds : BitVec 14) (s : State) : Result :=
  loadIntoUpdate .ldu 8 zext rt ra (eaUpdateDS ra ds s) s

/-- Load Doubleword with Update Indexed (R122). -/
def execLdux (rt ra rb : Reg) (s : State) : Result :=
  loadIntoUpdate .ldux 8 zext rt ra (eaUpdateX ra rb s) s

end Sys2Proof.Machine
end

