-- ==== Sys2Proof/Machine/LoadHalfword.lean ====
section
/-! DEFINITION. The halfword loads `lhz`, `lhzx`, `lhzu`, `lhzux`, `lha`, `lhax`, `lhau`, `lhaux`
(spec/42_load_halfword.md). -/

namespace Sys2Proof.Machine

/-- Load Halfword and Zero (R104). -/
def execLhz (rt ra : Reg) (d : BitVec 16) (s : State) : Result :=
  loadInto .lhz 2 zext rt (eaD ra d s) s

/-- Load Halfword and Zero Indexed (R105). -/
def execLhzx (rt ra rb : Reg) (s : State) : Result :=
  loadInto .lhzx 2 zext rt (eaX ra rb s) s

/-- Load Halfword and Zero with Update (R106). -/
def execLhzu (rt ra : Reg) (d : BitVec 16) (s : State) : Result :=
  loadIntoUpdate .lhzu 2 zext rt ra (eaUpdateD ra d s) s

/-- Load Halfword and Zero with Update Indexed (R107). -/
def execLhzux (rt ra rb : Reg) (s : State) : Result :=
  loadIntoUpdate .lhzux 2 zext rt ra (eaUpdateX ra rb s) s

/-- Load Halfword Algebraic (R108). -/
def execLha (rt ra : Reg) (d : BitVec 16) (s : State) : Result :=
  loadInto .lha 2 sext rt (eaD ra d s) s

/-- Load Halfword Algebraic Indexed (R109). -/
def execLhax (rt ra rb : Reg) (s : State) : Result :=
  loadInto .lhax 2 sext rt (eaX ra rb s) s

/-- Load Halfword Algebraic with Update (R110). -/
def execLhau (rt ra : Reg) (d : BitVec 16) (s : State) : Result :=
  loadIntoUpdate .lhau 2 sext rt ra (eaUpdateD ra d s) s

/-- Load Halfword Algebraic with Update Indexed (R111). -/
def execLhaux (rt ra rb : Reg) (s : State) : Result :=
  loadIntoUpdate .lhaux 2 sext rt ra (eaUpdateX ra rb s) s

end Sys2Proof.Machine
end

