-- ==== Sys2Proof/Machine/LoadMultiple.lean ====
section
/-! DEFINITION. Load Multiple Word `lmw` (spec/47_load_multiple.md). -/

namespace Sys2Proof.Machine

/-- Load Multiple Word (R130): the invalid form RA >= RT (R132), then the mode (R131, D18), then
`32 - RT` words, and all register writes after all reads (R70). The first register is the number in
the RT field (90_conflicts.md C2). -/
def execLmw (rt ra : Reg) (d : BitVec 16) (s : State) : Result :=
  if rt ≤ ra then raise (.invalidForm s.pc) s
  else if s.le then raise (.alignment s.pc none) s
  else
    withValue (readWords .lmw (eaD ra d s) s (32 - rt.val)) s fun ws =>
      .next ((s.setGprsFrom rt.val (ws.map zext)).advance)

end Sys2Proof.Machine
end

