-- ==== Sys2Proof/Machine/LoadQuadword.lean ====
section
/-! DEFINITION. The quadword load `lq` (spec/45_load_quadword.md). -/

namespace Sys2Proof.Machine

/-- The register pair receives the quadword: the even register RTp the more significant doubleword,
the odd register RTp + 1 the less significant one (R124, D17). RTp is even here, so RTp + 1 is at
most 31. -/
def State.setGprPair (s : State) (rtp : Reg) (q : BitVec 128) : State :=
  (s.setGpr rtp (q.extractLsb' 64 64)).setGpr (rtp + 1) (q.extractLsb' 0 64)

/-- Load Quadword (R123): the invalid forms in the order of R125, then the load. -/
def execLq (rtp ra : Reg) (dq : BitVec 12) (s : State) : Result :=
  if rtp = ra then raise (.illegalInstruction s.pc) s
  else if rtp.val % 2 = 1 then raise (.invalidForm s.pc) s
  else
    withValue (memRead .lq (eaDQ ra dq s) 16 s) s fun q => .next ((s.setGprPair rtp q).advance)

end Sys2Proof.Machine
end

