-- ==== Sys2Proof/Machine/LoadWord.lean ====
section
/-! DEFINITION. The word loads `lwz`, `lwzx`, `lwzu`, `lwzux`, `lwa`, `lwax`, `lwaux`
(spec/43_load_word.md). There is no `lwau` (R1). -/

namespace Sys2Proof.Machine

/-- Load Word and Zero (R112). -/
def execLwz (rt ra : Reg) (d : BitVec 16) (s : State) : Result :=
  loadInto .lwz 4 zext rt (eaD ra d s) s

/-- Load Word and Zero Indexed (R113). -/
def execLwzx (rt ra rb : Reg) (s : State) : Result :=
  loadInto .lwzx 4 zext rt (eaX ra rb s) s

/-- Load Word and Zero with Update (R114). -/
def execLwzu (rt ra : Reg) (d : BitVec 16) (s : State) : Result :=
  loadIntoUpdate .lwzu 4 zext rt ra (eaUpdateD ra d s) s

/-- Load Word and Zero with Update Indexed (R115). -/
def execLwzux (rt ra rb : Reg) (s : State) : Result :=
  loadIntoUpdate .lwzux 4 zext rt ra (eaUpdateX ra rb s) s

/-- Load Word Algebraic (R116). -/
def execLwa (rt ra : Reg) (ds : BitVec 14) (s : State) : Result :=
  loadInto .lwa 4 sext rt (eaDS ra ds s) s

/-- Load Word Algebraic Indexed (R117). -/
def execLwax (rt ra rb : Reg) (s : State) : Result :=
  loadInto .lwax 4 sext rt (eaX ra rb s) s

/-- Load Word Algebraic with Update Indexed (R118). -/
def execLwaux (rt ra rb : Reg) (s : State) : Result :=
  loadIntoUpdate .lwaux 4 sext rt ra (eaUpdateX ra rb s) s

end Sys2Proof.Machine
end

