-- ==== Sys2Proof/Machine/Dispatch.lean ====
section
/-! DEFINITION. One arm for each instruction: R70 phases 3 to 9 of a decoded instruction. -/

namespace Sys2Proof.Machine

/-- The effect of an instruction on a state (spec/40_load_common.md R70). -/
def exec (i : Instr) (s : State) : Host.Outcome State Fault Refusal :=
  match i with
  | .lbz rt ra d => Sys2Proof.Machine.execLbz rt ra d s
  | .lbzx rt ra rb => Sys2Proof.Machine.execLbzx rt ra rb s
  | .lbzu rt ra d => Sys2Proof.Machine.execLbzu rt ra d s
  | .lbzux rt ra rb => Sys2Proof.Machine.execLbzux rt ra rb s
  | .lhz rt ra d => Sys2Proof.Machine.execLhz rt ra d s
  | .lhzx rt ra rb => Sys2Proof.Machine.execLhzx rt ra rb s
  | .lhzu rt ra d => Sys2Proof.Machine.execLhzu rt ra d s
  | .lhzux rt ra rb => Sys2Proof.Machine.execLhzux rt ra rb s
  | .lha rt ra d => Sys2Proof.Machine.execLha rt ra d s
  | .lhax rt ra rb => Sys2Proof.Machine.execLhax rt ra rb s
  | .lhau rt ra d => Sys2Proof.Machine.execLhau rt ra d s
  | .lhaux rt ra rb => Sys2Proof.Machine.execLhaux rt ra rb s
  | .lwz rt ra d => Sys2Proof.Machine.execLwz rt ra d s
  | .lwzx rt ra rb => Sys2Proof.Machine.execLwzx rt ra rb s
  | .lwzu rt ra d => Sys2Proof.Machine.execLwzu rt ra d s
  | .lwzux rt ra rb => Sys2Proof.Machine.execLwzux rt ra rb s
  | .lwa rt ra ds => Sys2Proof.Machine.execLwa rt ra ds s
  | .lwax rt ra rb => Sys2Proof.Machine.execLwax rt ra rb s
  | .lwaux rt ra rb => Sys2Proof.Machine.execLwaux rt ra rb s
  | .ld rt ra ds => Sys2Proof.Machine.execLd rt ra ds s
  | .ldx rt ra rb => Sys2Proof.Machine.execLdx rt ra rb s
  | .ldu rt ra ds => Sys2Proof.Machine.execLdu rt ra ds s
  | .ldux rt ra rb => Sys2Proof.Machine.execLdux rt ra rb s
  | .lq rtp ra dq => Sys2Proof.Machine.execLq rtp ra dq s
  | .lhbrx rt ra rb => Sys2Proof.Machine.execLhbrx rt ra rb s
  | .lwbrx rt ra rb => Sys2Proof.Machine.execLwbrx rt ra rb s
  | .ldbrx rt ra rb => Sys2Proof.Machine.execLdbrx rt ra rb s
  | .lmw rt ra d => Sys2Proof.Machine.execLmw rt ra d s

end Sys2Proof.Machine
end

