-- ==== Sys2Proof/WellFormed.lean ====
section
/-! DEFINITION. Which instruction forms the spec calls valid (spec/00_scope.md R12,
spec/30_encoding.md R62). Every value of the operand fields can be encoded; a form is invalid by a
condition on its register fields alone. What executing an invalid form does is stated by the
machine (Sys2Proof/Machine/Operands.lean and the meanings), not here. -/

namespace Sys2Proof

/-- An update form is valid when RA is neither 0 nor RT (R62, row 1; R75). -/
def updateFormValid (rt ra : Reg) : Bool := ra != 0 && ra != rt

/-- `lq` is valid when RTp is even and RTp is not RA (R62, rows 2 and 3; R125). -/
def lqFormValid (rtp ra : Reg) : Bool := rtp.val % 2 == 0 && rtp != ra

/-- `lmw` is valid when RA is none of RT, RT+1, ..., 31 (R62, row 4; R132). -/
def lmwFormValid (rt ra : Reg) : Bool := ra < rt

/-- The instruction's form is valid: none of the conditions of R62 holds of its fields. -/
def Instr.wellFormed : Instr → Bool
  | .lbzu rt ra _ | .lhzu rt ra _ | .lhau rt ra _ | .lwzu rt ra _ => updateFormValid rt ra
  | .ldu rt ra _ => updateFormValid rt ra
  | .lbzux rt ra _ | .lhzux rt ra _ | .lhaux rt ra _ | .lwzux rt ra _ | .lwaux rt ra _
  | .ldux rt ra _ => updateFormValid rt ra
  | .lq rtp ra _ => lqFormValid rtp ra
  | .lmw rt ra _ => lmwFormValid rt ra
  | .lbz .. | .lbzx .. | .lhz .. | .lhzx .. | .lha .. | .lhax .. | .lwz .. | .lwzx .. | .lwa ..
  | .lwax .. | .ld .. | .ldx .. | .lhbrx .. | .lwbrx .. | .ldbrx .. => true

end Sys2Proof
end

