-- ==== Sys2Proof/Decode.lean ====
section
/-! DEFINITION. Decoding of instruction words by the opcode table (spec/30_encoding.md R50 to R62,
R65, R66), and after it the encoder, written from the form layouts R51 to R54 and the OPCD and XO
columns of R59. The numbers and positions are the spec's general-knowledge passages GK2 and GK3
(PRESUMED, notes/assumptions/1.md). -/

namespace Sys2Proof

/-- The four instruction formats (R51 to R54). -/
inductive Format where
  | D | DS | DQ | X
deriving DecidableEq, Repr

/-- A row of the opcode map: the word `w` selects it when `w AND mask = pattern` (R59). The mask
includes the reserved bits, which must be 0 (R61). -/
structure OpcodeRow where
  mnemonic : Mnemonic
  format   : Format
  pattern  : InstrWord
  mask     : InstrWord
deriving DecidableEq, Repr

/-- A D-form row: only the primary opcode is fixed (R51, R59). -/
def rowD (m : Mnemonic) (pattern : InstrWord) : OpcodeRow := ⟨m, .D, pattern, 0xFC000000⟩

/-- A DS-form row: primary opcode and the two XO bits are fixed (R52, R59). -/
def rowDS (m : Mnemonic) (pattern : InstrWord) : OpcodeRow := ⟨m, .DS, pattern, 0xFC000003⟩

/-- A DQ-form row: primary opcode and the four reserved bits are fixed (R53, R59, R61). -/
def rowDQ (m : Mnemonic) (pattern : InstrWord) : OpcodeRow := ⟨m, .DQ, pattern, 0xFC00000F⟩

/-- An X-form row: primary opcode, XO and the reserved bit are fixed (R54, R59, R61). -/
def rowX (m : Mnemonic) (pattern : InstrWord) : OpcodeRow := ⟨m, .X, pattern, 0xFC0007FF⟩

/-- The opcode map of R59, its columns `match` and `mask`, in its order. -/
def opcodeTable : List OpcodeRow := [
  rowD .lwz 0x80000000, rowD .lwzu 0x84000000, rowD .lbz 0x88000000, rowD .lbzu 0x8C000000,
  rowD .lhz 0xA0000000, rowD .lhzu 0xA4000000, rowD .lha 0xA8000000, rowD .lhau 0xAC000000,
  rowD .lmw 0xB8000000,
  rowDQ .lq 0xE0000000,
  rowDS .ld 0xE8000000, rowDS .ldu 0xE8000001, rowDS .lwa 0xE8000002,
  rowX .ldx 0x7C00002A, rowX .lwzx 0x7C00002E, rowX .ldux 0x7C00006A, rowX .lwzux 0x7C00006E,
  rowX .lbzx 0x7C0000AE, rowX .lbzux 0x7C0000EE, rowX .lhzx 0x7C00022E, rowX .lhzux 0x7C00026E,
  rowX .lwax 0x7C0002AA, rowX .lhax 0x7C0002AE, rowX .lwaux 0x7C0002EA, rowX .lhaux 0x7C0002EE,
  rowX .ldbrx 0x7C000428, rowX .lwbrx 0x7C00042C, rowX .lhbrx 0x7C00062C]

/-- The word has the row's fixed bits (R59). -/
def OpcodeRow.selects (r : OpcodeRow) (w : InstrWord) : Bool := w &&& r.mask == r.pattern

/-! The fields of a word, by the least-significant-first positions of R51 to R54. -/

/-- RT or RTp: `w[25:21]`. -/
def fieldRT (w : InstrWord) : Reg := (w.extractLsb' 21 5).toFin

/-- RA: `w[20:16]`. -/
def fieldRA (w : InstrWord) : Reg := (w.extractLsb' 16 5).toFin

/-- RB: `w[15:11]`. -/
def fieldRB (w : InstrWord) : Reg := (w.extractLsb' 11 5).toFin

/-- D: `w[15:0]`. -/
def fieldD (w : InstrWord) : BitVec 16 := w.extractLsb' 0 16

/-- DS: `w[15:2]`. -/
def fieldDS (w : InstrWord) : BitVec 14 := w.extractLsb' 2 14

/-- DQ: `w[15:4]`. -/
def fieldDQ (w : InstrWord) : BitVec 12 := w.extractLsb' 4 12

/-- The instruction of a mnemonic with the operand fields of the word (R60). -/
def instrOf (m : Mnemonic) (w : InstrWord) : Instr :=
  match m with
  | .lbz => .lbz (fieldRT w) (fieldRA w) (fieldD w)
  | .lbzx => .lbzx (fieldRT w) (fieldRA w) (fieldRB w)
  | .lbzu => .lbzu (fieldRT w) (fieldRA w) (fieldD w)
  | .lbzux => .lbzux (fieldRT w) (fieldRA w) (fieldRB w)
  | .lhz => .lhz (fieldRT w) (fieldRA w) (fieldD w)
  | .lhzx => .lhzx (fieldRT w) (fieldRA w) (fieldRB w)
  | .lhzu => .lhzu (fieldRT w) (fieldRA w) (fieldD w)
  | .lhzux => .lhzux (fieldRT w) (fieldRA w) (fieldRB w)
  | .lha => .lha (fieldRT w) (fieldRA w) (fieldD w)
  | .lhax => .lhax (fieldRT w) (fieldRA w) (fieldRB w)
  | .lhau => .lhau (fieldRT w) (fieldRA w) (fieldD w)
  | .lhaux => .lhaux (fieldRT w) (fieldRA w) (fieldRB w)
  | .lwz => .lwz (fieldRT w) (fieldRA w) (fieldD w)
  | .lwzx => .lwzx (fieldRT w) (fieldRA w) (fieldRB w)
  | .lwzu => .lwzu (fieldRT w) (fieldRA w) (fieldD w)
  | .lwzux => .lwzux (fieldRT w) (fieldRA w) (fieldRB w)
  | .lwa => .lwa (fieldRT w) (fieldRA w) (fieldDS w)
  | .lwax => .lwax (fieldRT w) (fieldRA w) (fieldRB w)
  | .lwaux => .lwaux (fieldRT w) (fieldRA w) (fieldRB w)
  | .ld => .ld (fieldRT w) (fieldRA w) (fieldDS w)
  | .ldx => .ldx (fieldRT w) (fieldRA w) (fieldRB w)
  | .ldu => .ldu (fieldRT w) (fieldRA w) (fieldDS w)
  | .ldux => .ldux (fieldRT w) (fieldRA w) (fieldRB w)
  | .lq => .lq (fieldRT w) (fieldRA w) (fieldDQ w)
  | .lhbrx => .lhbrx (fieldRT w) (fieldRA w) (fieldRB w)
  | .lwbrx => .lwbrx (fieldRT w) (fieldRA w) (fieldRB w)
  | .ldbrx => .ldbrx (fieldRT w) (fieldRA w) (fieldRB w)
  | .lmw => .lmw (fieldRT w) (fieldRA w) (fieldD w)

/-- Why bytes decode to no instruction. -/
inductive DecodeError where
  /-- The word matches no row of the opcode table (R65); a set reserved bit is such a case (R61). -/
  | notInScope
  /-- The bytes are not one word of 4 bytes, the only instruction length (R50, R66). -/
  | notOneWord
deriving DecidableEq, Repr

/-- Decoding of a word (R60): the row it selects, then the fields of that row's form. It reads
nothing but the word. Invalid forms decode; they are told apart by the meanings (R62). -/
def decodeWord (w : InstrWord) : Except DecodeError Instr :=
  match opcodeTable.find? (·.selects w) with
  | some r => .ok (instrOf r.mnemonic w)
  | none => .error .notInScope

/-- The word made of four bytes in address order, in the byte order of the endian mode (R50). -/
def wordOfBytes (le : Bool) (b0 b1 b2 b3 : Byte) : InstrWord :=
  if le then b3 ++ b2 ++ b1 ++ b0 else b0 ++ b1 ++ b2 ++ b3

/-- Decoding of any bytes, in address order. -/
def decodeBytes (le : Bool) : List Byte → Except DecodeError Instr
  | [b0, b1, b2, b3] => decodeWord (wordOfBytes le b0 b1 b2 b3)
  | _ => .error .notOneWord

/-- The bytes of a word in address order, in the byte order of the endian mode (R50). -/
def bytesOfWord (le : Bool) (w : InstrWord) : List Byte :=
  let b := [w.extractLsb' 24 8, w.extractLsb' 16 8, w.extractLsb' 8 8, w.extractLsb' 0 8]
  if le then b.reverse else b

/-! The encoder. -/

/-- The number of a register as a 5-bit field (R58). -/
def regField (r : Reg) : BitVec 5 := BitVec.ofFin r

/-- D-form layout: OPCD, RT, RA, D from the most significant end (R51). -/
def encodeD (opcd : BitVec 6) (rt ra : Reg) (d : BitVec 16) : InstrWord :=
  opcd ++ regField rt ++ regField ra ++ d

/-- DS-form layout: OPCD, RT, RA, DS, XO (R52). -/
def encodeDS (opcd : BitVec 6) (rt ra : Reg) (ds : BitVec 14) (xo : BitVec 2) : InstrWord :=
  opcd ++ regField rt ++ regField ra ++ ds ++ xo

/-- DQ-form layout: OPCD, RTp, RA, DQ, four reserved zero bits (R53, R61). -/
def encodeDQ (opcd : BitVec 6) (rtp ra : Reg) (dq : BitVec 12) : InstrWord :=
  opcd ++ regField rtp ++ regField ra ++ dq ++ 0#4

/-- X-form layout: OPCD, RT, RA, RB, XO, one reserved zero bit (R54, R61). -/
def encodeX (opcd : BitVec 6) (rt ra rb : Reg) (xo : BitVec 10) : InstrWord :=
  opcd ++ regField rt ++ regField ra ++ regField rb ++ xo ++ 0#1

/-- The word of an instruction, from the columns OPCD and XO of R59. -/
def encode : Instr → InstrWord
  | .lbz rt ra d => encodeD 34 rt ra d
  | .lbzx rt ra rb => encodeX 31 rt ra rb 87
  | .lbzu rt ra d => encodeD 35 rt ra d
  | .lbzux rt ra rb => encodeX 31 rt ra rb 119
  | .lhz rt ra d => encodeD 40 rt ra d
  | .lhzx rt ra rb => encodeX 31 rt ra rb 279
  | .lhzu rt ra d => encodeD 41 rt ra d
  | .lhzux rt ra rb => encodeX 31 rt ra rb 311
  | .lha rt ra d => encodeD 42 rt ra d
  | .lhax rt ra rb => encodeX 31 rt ra rb 343
  | .lhau rt ra d => encodeD 43 rt ra d
  | .lhaux rt ra rb => encodeX 31 rt ra rb 375
  | .lwz rt ra d => encodeD 32 rt ra d
  | .lwzx rt ra rb => encodeX 31 rt ra rb 23
  | .lwzu rt ra d => encodeD 33 rt ra d
  | .lwzux rt ra rb => encodeX 31 rt ra rb 55
  | .lwa rt ra ds => encodeDS 58 rt ra ds 2
  | .lwax rt ra rb => encodeX 31 rt ra rb 341
  | .lwaux rt ra rb => encodeX 31 rt ra rb 373
  | .ld rt ra ds => encodeDS 58 rt ra ds 0
  | .ldx rt ra rb => encodeX 31 rt ra rb 21
  | .ldu rt ra ds => encodeDS 58 rt ra ds 1
  | .ldux rt ra rb => encodeX 31 rt ra rb 53
  | .lq rtp ra dq => encodeDQ 56 rtp ra dq
  | .lhbrx rt ra rb => encodeX 31 rt ra rb 790
  | .lwbrx rt ra rb => encodeX 31 rt ra rb 534
  | .ldbrx rt ra rb => encodeX 31 rt ra rb 532
  | .lmw rt ra d => encodeD 46 rt ra d

/-- The instruction the decoder reads from an instruction whose bits are `w`, of which the opcode
table gives `nbits`; the bits above them are 0. The word is laid out in Big-Endian mode, the mode of
`State.reset`. -/
def decodeTableWord (nbits w : Nat) : Option Instr :=
  match decodeBytes false (bytesOfWord false (BitVec.ofNat 32 (w % 2 ^ nbits))) with
  | .ok i => some i
  | .error _ => none

end Sys2Proof
end

