-- ==== Sys2Proof/Machine/Fetch.lean ====
section
/-! DEFINITION. Fetching the instruction word at `pc` (spec/30_encoding.md R50, spec/10_state.md R23,
spec/40_load_common.md R70 phase 1), and placing one there. -/

namespace Sys2Proof.Machine

/-- The instruction word at `pc`, in the byte order of the mode (R50). Refused when `pc` is
misaligned or the successor address would wrap (R23); a byte that is not accessible raises
`StorageFault(pc, pc)`; `align_fault` is not applied to fetch (R50). -/
def fetch (s : State) : Except Stop InstrWord :=
  if s.pc.toNat % 4 ≠ 0 then .error (.refuse .pcMisaligned)
  else if s.pc.toNat = 2 ^ 64 - 4 then .error (.refuse .pcWrap)
  else if (List.range 4).any (fun i => !accessible s.params (s.pc.toNat + i)) then
    .error (.raise (.storageFault s.pc s.pc))
  else .ok (storageValue s.le s.mem s.pc.toNat 4)

/-- The state with the word stored at `pc`, in the byte order of the mode (R50, `TextPresent` of
R252). Nothing else changes. -/
def placeWord (s : State) (w : InstrWord) : State :=
  { s with mem := s.mem.writeBytes s.pc.toNat (bytesOfWord s.le w) }

end Sys2Proof.Machine
end

