-- ==== Sys2Proof/Machine/Step.lean ====
section
/-! DEFINITION. One step of the machine: one instruction from a state without a fault
(spec/40_load_common.md R70). -/

namespace Sys2Proof.Machine

/-- One step (R70): a state that holds a fault has no further step (R200) and answers its record;
else fetch, decode, execute. A word in no row of the opcode table is refused (R65). -/
def step (s : State) : Host.Outcome State Fault Refusal :=
  match s.fault with
  | some f => .fault f
  | none =>
    withValue (fetch s) s fun w =>
      match decodeWord w with
      | .ok i => exec i s
      | .error _ => .refused .notInScope

/-- The state with the instruction whose bits are `w` stored at `pc`: the `nbits` bits the opcode
table gives, the bits above them 0. From `State.reset` the next step fetches and runs exactly it
(notes/assumptions/21.md). -/
def State.withFetchWord (s : State) (nbits w : Nat) : State :=
  placeWord s (BitVec.ofNat 32 (w % 2 ^ nbits))

end Sys2Proof.Machine
end

