-- ==== Sys2Proof/Safety.lean ====
section
/-! DEFINITION. The terms claims use: what an access needs, the spec's per-instruction tables of
registers and accesses (spec/10_state.md R22, spec/20_memory.md R45, spec/40_load_common.md R71 to
R75), the sums of R37, the launch premises and the run (spec/70_reset_and_hazards.md R252, R253), and
the invariant of the machine. No definition here is used by `step`. -/

namespace Sys2Proof.Machine

/-! ### Accesses -/

/-- The access of `n` bytes at `ea` by the instruction `m` neither is refused nor raises: none of the
tests of `MemRead` (R36) applies. -/
abbrev Readable (m : Mnemonic) (ea : Word) (n : Nat) (s : State) : Prop :=
  ea.toNat + n ≤ 2 ^ 64 ∧ alignFault s.params m ea n = false ∧
    ∀ i < n, accessible s.params (ea.toNat + i) = true

/-- The sum of R37 for `LE = 0`. -/
def bigSum (m : Memory) (a n : Nat) : Nat :=
  ∑ i ∈ Finset.range n, (m.read (a + i)).toNat * 2 ^ (8 * (n - 1 - i))

/-- The sum of R37 for `LE = 1`. -/
def littleSum (m : Memory) (a n : Nat) : Nat :=
  ∑ i ∈ Finset.range n, (m.read (a + i)).toNat * 2 ^ (8 * i)

/-- The sum of R37 in the given mode. -/
def modeSum (le : Bool) (m : Memory) (a n : Nat) : Nat :=
  if le then littleSum m a n else bigSum m a n

/-- The signed reading of an `n`-bit number (the source's EXTS, R5). -/
def signedOf (n v : Nat) : Int := if v < 2 ^ (n - 1) then (v : Int) else (v : Int) - 2 ^ n

/-! ### What changes -/

/-- `t` is `s` after an instruction that completed and wrote no register outside `changed`: the `pc`
has advanced, and every other register, the mode, every byte of storage, the fault status and the
parameters are as before. -/
structure OnlyChanged (s t : State) (changed : List Reg) : Prop where
  gpr    : ∀ r, r ∉ changed → t.gpr r = s.gpr r
  pc     : t.pc = s.pc + 4
  le     : t.le = s.le
  mem    : ∀ a, t.mem.read a = s.mem.read a
  fault  : t.fault = s.fault
  params : t.params = s.params

end Sys2Proof.Machine

namespace Sys2Proof

open Sys2Proof.Machine

/-! ### The tables of R22, R45 and R71 to R75 -/

/-- The registers a base `(RA|0)` reads (R6, R22). -/
def baseReads (ra : Reg) : List Reg := if ra = 0 then [] else [ra]

/-- The registers whose content is an input of the instruction (R22, column Reads). -/
def Instr.reads : Instr → List Reg
  | .lbz _ ra _ | .lhz _ ra _ | .lha _ ra _ | .lwz _ ra _ | .lmw _ ra _ => baseReads ra
  | .lwa _ ra _ | .ld _ ra _ => baseReads ra
  | .lq _ ra _ => baseReads ra
  | .lbzx _ ra rb | .lhzx _ ra rb | .lhax _ ra rb | .lwzx _ ra rb | .lwax _ ra rb | .ldx _ ra rb
  | .lhbrx _ ra rb | .lwbrx _ ra rb | .ldbrx _ ra rb => baseReads ra ++ [rb]
  | .lbzu _ ra _ | .lhzu _ ra _ | .lhau _ ra _ | .lwzu _ ra _ => [ra]
  | .ldu _ ra _ => [ra]
  | .lbzux _ ra rb | .lhzux _ ra rb | .lhaux _ ra rb | .lwzux _ ra rb | .lwaux _ ra rb
  | .ldux _ ra rb => [ra, rb]

/-- The registers the instruction writes when it completes (R22, column Writes). -/
def Instr.writes : Instr → List Reg
  | .lbz rt _ _ | .lhz rt _ _ | .lha rt _ _ | .lwz rt _ _ => [rt]
  | .lwa rt _ _ | .ld rt _ _ => [rt]
  | .lbzx rt _ _ | .lhzx rt _ _ | .lhax rt _ _ | .lwzx rt _ _ | .lwax rt _ _ | .ldx rt _ _
  | .lhbrx rt _ _ | .lwbrx rt _ _ | .ldbrx rt _ _ => [rt]
  | .lbzu rt ra _ | .lhzu rt ra _ | .lhau rt ra _ | .lwzu rt ra _ => [rt, ra]
  | .ldu rt ra _ => [rt, ra]
  | .lbzux rt ra _ | .lhzux rt ra _ | .lhaux rt ra _ | .lwzux rt ra _ | .lwaux rt ra _
  | .ldux rt ra _ => [rt, ra]
  | .lq rtp _ _ => [rtp, rtp + 1]
  | .lmw rt _ _ => (List.finRange 32).filter (rt ≤ ·)

/-- The effective address of the instruction (R71 to R75); for `lmw`, of its first word (R130). -/
def Instr.ea (s : State) : Instr → Word
  | .lbz _ ra d | .lhz _ ra d | .lha _ ra d | .lwz _ ra d | .lmw _ ra d => eaD ra d s
  | .lwa _ ra ds | .ld _ ra ds => eaDS ra ds s
  | .lq _ ra dq => eaDQ ra dq s
  | .lbzx _ ra rb | .lhzx _ ra rb | .lhax _ ra rb | .lwzx _ ra rb | .lwax _ ra rb | .ldx _ ra rb
  | .lhbrx _ ra rb | .lwbrx _ ra rb | .ldbrx _ ra rb => eaX ra rb s
  | .lbzu _ ra d | .lhzu _ ra d | .lhau _ ra d | .lwzu _ ra d => eaUpdateD ra d s
  | .ldu _ ra ds => eaUpdateDS ra ds s
  | .lbzux _ ra rb | .lhzux _ ra rb | .lhaux _ ra rb | .lwzux _ ra rb | .lwaux _ ra rb
  | .ldux _ ra rb => eaUpdateX ra rb s

/-- The bytes of one access of an instruction (R45). -/
def Mnemonic.bytes : Mnemonic → Nat
  | .lbz | .lbzx | .lbzu | .lbzux => 1
  | .lhz | .lhzx | .lhzu | .lhzux | .lha | .lhax | .lhau | .lhaux | .lhbrx => 2
  | .lwz | .lwzx | .lwzu | .lwzux | .lwa | .lwax | .lwaux | .lwbrx | .lmw => 4
  | .ld | .ldx | .ldu | .ldux | .ldbrx => 8
  | .lq => 16

/-- The instruction comes to an access at `a`: at its effective address when it has one access; for
`lmw`, which accesses only in Big-Endian mode, at one of its words, those before it being readable
(R45, R130). -/
def Instr.ReachesAccess (i : Instr) (s : State) (a : Word) : Prop :=
  (i.mnemonic ≠ .lmw → a = i.ea s) ∧
  ∀ rt ra d, i = .lmw rt ra d → s.le = false ∧
    ∃ k < 32 - rt.val, a = i.ea s + BitVec.ofNat 64 (4 * k) ∧
      ∀ j < k, Readable .lmw (i.ea s + BitVec.ofNat 64 (4 * j)) 4 s

end Sys2Proof

namespace Sys2Proof.Machine

/-! ### The run (R252, R253) -/

/-- The launch premises of R252 for a program of the given words at `base`: `NoFault`, `PcAligned`,
`TextInRange` (with `end_pc = base + 4k`), `TextAccessible`, `TextPresent` (each word in the byte
order of the mode). `Mode64`, `LeFixed` and `NothingInFlight` hold of every state of this model. -/
structure LaunchPremises (s : State) (base : Nat) (program : List InstrWord) : Prop where
  noFault        : s.fault = none
  pcAligned      : base % 4 = 0
  pcAtBase       : s.pc.toNat = base
  textInRange    : base + 4 * program.length ≤ 2 ^ 64 - 4
  textAccessible : ∀ i < 4 * program.length, accessible s.params (base + i) = true
  textPresent    : ∀ k (h : k < program.length),
    s.mem.bytesAt (base + 4 * k) 4 = bytesOfWord s.le program[k]

/-- How a run stands after some steps (R253). -/
inductive RunEnd where
  /-- `pc = end_pc`, no fault, no refusal: the run is over and this is its final state. -/
  | final (s : State)
  /-- The state holds a fault: terminal, not final. -/
  | terminal (s : State)
  /-- The run was refused: no state at all, and the mark of R208. -/
  | refused (r : Refusal)
  /-- None of these yet. -/
  | running (s : State)
deriving DecidableEq, Repr

/-- The run from `s` of at most `k` steps, with the argument `end_pc` (R253): the word at `end_pc` is
not fetched. -/
def runTo (endPc : Word) : Nat → State → RunEnd
  | k, s =>
    if s.fault ≠ none then .terminal s
    else if s.pc = endPc then .final s
    else
      match k with
      | 0 => .running s
      | k + 1 =>
        match step s with
        | .next t => runTo endPc k t
        | .fault _ => .terminal s
        | .refused r => .refused r

/-- `k` steps, ending at the first answer that is no next state. -/
def stepN : Nat → State → Result
  | 0, s => .next s
  | k + 1, s =>
    match step s with
    | .next t => stepN k t
    | .fault f => .fault f
    | .refused r => .refused r

/-! ### The invariant -/

/-- What every step keeps: storage is in canonical form; `pc` is a multiple of 4 (R23); a fault record
names the instruction at `pc` (R200), and an `Alignment` record without an address stands only in
Little-Endian mode (R131, R203). -/
structure Inv (s : State) : Prop where
  memWf       : s.mem.wf
  pcAligned   : s.pc.toNat % 4 = 0
  faultPc     : ∀ f, s.fault = some f → f.pc = s.pc
  alignmentLE : ∀ pc, s.fault = some (.alignment pc none) → s.le = true

end Sys2Proof.Machine
end

