-- ==== Sys2Proof/Certificates/Slice0/Obligations.lean ====
section
/-! DEFINITION. The statements for the provers, from the numbered rules of spec/. `Readable`,
`OnlyChanged`, `modeSum`, the register and access tables, the run and the invariant are defined in
Sys2Proof/Safety.lean. -/

open Sys2Proof Sys2Proof.Machine

/-! ### Decoding and encoding -/

/-- R60 with R51 to R54: decoding the word of an instruction gives it back, every operand at every
value, invalid forms included.
The positions and numbers are the general knowledge GK2 and GK3 of the spec (notes/assumptions/1.md). -/
def Obligations.DecodeOfEncodeIsIdentity : Prop :=
  ∀ i : Instr, decodeWord (encode i) = .ok i

/-- The other direction: a word that decodes is the word of the instruction it decodes to, so no bit
of a decoded word is dropped (R51 to R54, R61).
The positions and numbers are the general knowledge GK2 and GK3 of the spec (notes/assumptions/1.md). -/
def Obligations.EncodeOfDecodeIsIdentity : Prop :=
  ∀ (w : InstrWord) (i : Instr), decodeWord w = .ok i → encode i = w

/-- R59, R60: a word decodes to an instruction of a mnemonic exactly when `w AND mask = match` for
the row of that mnemonic.
The numbers are the general knowledge GK3 of the spec (notes/assumptions/1.md). -/
def Obligations.DecodeSelectsTheMatchingRow : Prop :=
  ∀ row ∈ opcodeTable, ∀ w : InstrWord,
    (∃ i, decodeWord w = .ok i ∧ i.mnemonic = row.mnemonic) ↔ w &&& row.mask = row.pattern

/-- R61, R65: a set reserved bit, or extended opcode 3 under primary opcode 58, is in no row.
The strict decoding is the decision D10 of the spec (notes/assumptions/17.md). -/
def Obligations.ReservedBitsAreNotInScope : Prop :=
  ∀ w : InstrWord,
    (w.extractLsb' 26 6 = 31 → w.getLsbD 0 = true → decodeWord w = .error .notInScope) ∧
    (w.extractLsb' 26 6 = 56 → w.extractLsb' 0 4 ≠ 0 → decodeWord w = .error .notInScope) ∧
    (w.extractLsb' 26 6 = 58 → w.extractLsb' 0 2 = 3 → decodeWord w = .error .notInScope)

/-- Words written out from the encoding examples of 30_encoding.md section 7 and the decode vectors
of 95_test_vectors.md section 5.
The numbers are the general knowledge GK3 of the spec (notes/assumptions/1.md). -/
def Obligations.EncodingExamplesDecode : Prop :=
  decodeWord 0x88640009 = .ok (.lbz 3 4 0x0009) ∧
  decodeWord 0x7C64282E = .ok (.lwzx 3 4 5) ∧
  decodeWord 0xE864FFF8 = .ok (.ld 3 4 0x3FFE) ∧
  decodeWord 0xE8640009 = .ok (.ldu 3 4 2) ∧
  decodeWord 0xE104FFF0 = .ok (.lq 8 4 0xFFF) ∧
  decodeWord 0xA8640008 = .ok (.lha 3 4 8) ∧
  decodeWord 0x7C64362C = .ok (.lhbrx 3 4 6) ∧
  decodeWord 0xBBA1FFF4 = .ok (.lmw 29 1 0xFFF4)

/-! ### Displacements and effective addresses -/

/-- R55, R56, R57: the displacements as signed numbers: D, four times DS, sixteen times DQ; the fields
with their zero bits are the low 16 bits of the word with the low 2 or 4 cleared. -/
def Obligations.DisplacementsAreSignedAndScaled : Prop :=
  (∀ d : BitVec 16, (dispD d).toInt = d.toInt) ∧
  (∀ ds : BitVec 14, dispDS ds = (ds ++ 0#2).signExtend 64 ∧ (dispDS ds).toInt = 4 * ds.toInt) ∧
  (∀ dq : BitVec 12, dispDQ dq = (dq ++ 0#4).signExtend 64 ∧ (dispDQ dq).toInt = 16 * dq.toInt) ∧
  (∀ w : InstrWord, fieldDS w ++ 0#2 = w.extractLsb' 0 16 &&& 0xFFFC#16) ∧
  (∀ w : InstrWord, fieldDQ w ++ 0#4 = w.extractLsb' 0 16 &&& 0xFFF0#16)

/-- R71 to R75 and R13: the effective address is the sum of the base and the signed displacement, or
of the base and the index, modulo 2^64; the base is 0 where R6 says so.
The base `(RA|0)` is the general knowledge GK4 of the spec (notes/assumptions/10.md). -/
def Obligations.EffectiveAddressIsTheSumModulo : Prop :=
  ∀ (s : State) (ra rb : Reg) (d : BitVec 16) (ds : BitVec 14) (dq : BitVec 12),
    let base : Int := if ra = 0 then 0 else (s.gpr ra).toNat
    ((eaD ra d s).toNat : Int) = (base + d.toInt) % 2 ^ 64 ∧
    ((eaDS ra ds s).toNat : Int) = (base + 4 * ds.toInt) % 2 ^ 64 ∧
    ((eaDQ ra dq s).toNat : Int) = (base + 16 * dq.toInt) % 2 ^ 64 ∧
    ((eaX ra rb s).toNat : Int) = (base + (s.gpr rb).toNat) % 2 ^ 64 ∧
    ((eaUpdateD ra d s).toNat : Int) = ((s.gpr ra).toNat + d.toInt) % 2 ^ 64 ∧
    ((eaUpdateDS ra ds s).toNat : Int) = ((s.gpr ra).toNat + 4 * ds.toInt) % 2 ^ 64 ∧
    ((eaUpdateX ra rb s).toNat : Int) = ((s.gpr ra).toNat + (s.gpr rb).toNat) % 2 ^ 64

/-! ### The value of a storage operand -/

/-- R37: the value of an operand is the sum of its bytes with the weights of the mode, at every size; it
is the byte reversal of the value in the other mode; a value of one byte is the byte in both.
The byte order is the decision D4 of the spec (notes/assumptions/11.md). -/
def Obligations.StorageValueIsTheSumOfItsBytes : Prop :=
  ∀ (le : Bool) (m : Memory) (a n : Nat),
    (storageValue false m a n).toNat =
      ∑ i ∈ Finset.range n, (m.read (a + i)).toNat * 2 ^ (8 * (n - 1 - i)) ∧
    (storageValue true m a n).toNat =
      ∑ i ∈ Finset.range n, (m.read (a + i)).toNat * 2 ^ (8 * i) ∧
    storageValue le m a n = brev n (storageValue (!le) m a n) ∧
    storageValue le m a 1 = m.read a

/-- R126 to R128: byte reversal of 2, 4 and 8 bytes, slice by slice. -/
def Obligations.ByteReversalSwapsTheSlices : Prop :=
  (∀ v : BitVec 16, brev 2 v = v.extractLsb' 0 8 ++ v.extractLsb' 8 8) ∧
  (∀ v : BitVec 32, brev 4 v =
    v.extractLsb' 0 8 ++ v.extractLsb' 8 8 ++ v.extractLsb' 16 8 ++ v.extractLsb' 24 8) ∧
  (∀ v : BitVec 64, brev 8 v =
    v.extractLsb' 0 8 ++ v.extractLsb' 8 8 ++ v.extractLsb' 16 8 ++ v.extractLsb' 24 8 ++
    v.extractLsb' 32 8 ++ v.extractLsb' 40 8 ++ v.extractLsb' 48 8 ++ v.extractLsb' 56 8)

/-! ### What each load does when it completes: its result, its frame, and that it completes -/

/-- R100, R101: `lbz` and `lbzx` complete; RT receives the byte at EA, the upper bits 0, in both
modes. -/
def Obligations.ByteLoadsFillRTWithTheByte : Prop :=
  ∀ (s : State) (rt ra rb : Reg) (d : BitVec 16),
    let base := if ra = 0 then 0 else s.gpr ra
    (let ea := base + d.signExtend 64
     Readable .lbz ea 1 s →
      ∃ t, exec (.lbz rt ra d) s = .next t ∧
        (t.gpr rt).toNat = (s.mem.read ea.toNat).toNat ∧ OnlyChanged s t [rt]) ∧
    (let ea := base + s.gpr rb
     Readable .lbzx ea 1 s →
      ∃ t, exec (.lbzx rt ra rb) s = .next t ∧
        (t.gpr rt).toNat = (s.mem.read ea.toNat).toNat ∧ OnlyChanged s t [rt])

/-- R102, R103, R75: `lbzu` and `lbzux` complete on a valid form; RT receives the byte at EA and RA
receives EA. -/
def Obligations.ByteUpdateLoadsFillRTAndRA : Prop :=
  ∀ (s : State) (rt ra rb : Reg) (d : BitVec 16), ra ≠ 0 → ra ≠ rt →
    (let ea := s.gpr ra + d.signExtend 64
     Readable .lbzu ea 1 s →
      ∃ t, exec (.lbzu rt ra d) s = .next t ∧
        (t.gpr rt).toNat = (s.mem.read ea.toNat).toNat ∧ t.gpr ra = ea ∧
        OnlyChanged s t [rt, ra]) ∧
    (let ea := s.gpr ra + s.gpr rb
     Readable .lbzux ea 1 s →
      ∃ t, exec (.lbzux rt ra rb) s = .next t ∧
        (t.gpr rt).toNat = (s.mem.read ea.toNat).toNat ∧ t.gpr ra = ea ∧
        OnlyChanged s t [rt, ra])

/-- R104, R105: `lhz` and `lhzx` complete; RT receives the halfword at EA in the byte order of the
mode, zero-extended. -/
def Obligations.HalfwordLoadsZeroExtend : Prop :=
  ∀ (s : State) (rt ra rb : Reg) (d : BitVec 16),
    let base := if ra = 0 then 0 else s.gpr ra
    (let ea := base + d.signExtend 64
     Readable .lhz ea 2 s →
      ∃ t, exec (.lhz rt ra d) s = .next t ∧
        (t.gpr rt).toNat = modeSum s.le s.mem ea.toNat 2 ∧ OnlyChanged s t [rt]) ∧
    (let ea := base + s.gpr rb
     Readable .lhzx ea 2 s →
      ∃ t, exec (.lhzx rt ra rb) s = .next t ∧
        (t.gpr rt).toNat = modeSum s.le s.mem ea.toNat 2 ∧ OnlyChanged s t [rt])

/-- R106, R107, R75: `lhzu` and `lhzux` complete on a valid form; RT receives the zero-extended
halfword and RA receives EA. -/
def Obligations.HalfwordUpdateLoadsZeroExtend : Prop :=
  ∀ (s : State) (rt ra rb : Reg) (d : BitVec 16), ra ≠ 0 → ra ≠ rt →
    (let ea := s.gpr ra + d.signExtend 64
     Readable .lhzu ea 2 s →
      ∃ t, exec (.lhzu rt ra d) s = .next t ∧
        (t.gpr rt).toNat = modeSum s.le s.mem ea.toNat 2 ∧ t.gpr ra = ea ∧
        OnlyChanged s t [rt, ra]) ∧
    (let ea := s.gpr ra + s.gpr rb
     Readable .lhzux ea 2 s →
      ∃ t, exec (.lhzux rt ra rb) s = .next t ∧
        (t.gpr rt).toNat = modeSum s.le s.mem ea.toNat 2 ∧ t.gpr ra = ea ∧
        OnlyChanged s t [rt, ra])

/-- R108, R109, R77: `lha` and `lhax` complete; RT receives the halfword read as a signed number. -/
def Obligations.HalfwordAlgebraicLoadsSignExtend : Prop :=
  ∀ (s : State) (rt ra rb : Reg) (d : BitVec 16),
    let base := if ra = 0 then 0 else s.gpr ra
    (let ea := base + d.signExtend 64
     Readable .lha ea 2 s →
      ∃ t, exec (.lha rt ra d) s = .next t ∧
        (t.gpr rt).toInt = signedOf 16 (modeSum s.le s.mem ea.toNat 2) ∧
        OnlyChanged s t [rt]) ∧
    (let ea := base + s.gpr rb
     Readable .lhax ea 2 s →
      ∃ t, exec (.lhax rt ra rb) s = .next t ∧
        (t.gpr rt).toInt = signedOf 16 (modeSum s.le s.mem ea.toNat 2) ∧
        OnlyChanged s t [rt])

/-- R110, R111, R75, R77: `lhau` and `lhaux` complete on a valid form; RT receives the signed
halfword and RA receives EA. -/
def Obligations.HalfwordAlgebraicUpdateLoadsSignExtend : Prop :=
  ∀ (s : State) (rt ra rb : Reg) (d : BitVec 16), ra ≠ 0 → ra ≠ rt →
    (let ea := s.gpr ra + d.signExtend 64
     Readable .lhau ea 2 s →
      ∃ t, exec (.lhau rt ra d) s = .next t ∧
        (t.gpr rt).toInt = signedOf 16 (modeSum s.le s.mem ea.toNat 2) ∧ t.gpr ra = ea ∧
        OnlyChanged s t [rt, ra]) ∧
    (let ea := s.gpr ra + s.gpr rb
     Readable .lhaux ea 2 s →
      ∃ t, exec (.lhaux rt ra rb) s = .next t ∧
        (t.gpr rt).toInt = signedOf 16 (modeSum s.le s.mem ea.toNat 2) ∧ t.gpr ra = ea ∧
        OnlyChanged s t [rt, ra])

/-- R112, R113: `lwz` and `lwzx` complete; RT receives the word at EA in the byte order of the mode,
zero-extended. -/
def Obligations.WordLoadsZeroExtend : Prop :=
  ∀ (s : State) (rt ra rb : Reg) (d : BitVec 16),
    let base := if ra = 0 then 0 else s.gpr ra
    (let ea := base + d.signExtend 64
     Readable .lwz ea 4 s →
      ∃ t, exec (.lwz rt ra d) s = .next t ∧
        (t.gpr rt).toNat = modeSum s.le s.mem ea.toNat 4 ∧ OnlyChanged s t [rt]) ∧
    (let ea := base + s.gpr rb
     Readable .lwzx ea 4 s →
      ∃ t, exec (.lwzx rt ra rb) s = .next t ∧
        (t.gpr rt).toNat = modeSum s.le s.mem ea.toNat 4 ∧ OnlyChanged s t [rt])

/-- R114, R115, R75: `lwzu` and `lwzux` complete on a valid form; RT receives the zero-extended word
and RA receives EA. -/
def Obligations.WordUpdateLoadsZeroExtend : Prop :=
  ∀ (s : State) (rt ra rb : Reg) (d : BitVec 16), ra ≠ 0 → ra ≠ rt →
    (let ea := s.gpr ra + d.signExtend 64
     Readable .lwzu ea 4 s →
      ∃ t, exec (.lwzu rt ra d) s = .next t ∧
        (t.gpr rt).toNat = modeSum s.le s.mem ea.toNat 4 ∧ t.gpr ra = ea ∧
        OnlyChanged s t [rt, ra]) ∧
    (let ea := s.gpr ra + s.gpr rb
     Readable .lwzux ea 4 s →
      ∃ t, exec (.lwzux rt ra rb) s = .next t ∧
        (t.gpr rt).toNat = modeSum s.le s.mem ea.toNat 4 ∧ t.gpr ra = ea ∧
        OnlyChanged s t [rt, ra])

/-- R116, R117, R77: `lwa` and `lwax` complete; RT receives the word read as a signed number. -/
def Obligations.WordAlgebraicLoadsSignExtend : Prop :=
  ∀ (s : State) (rt ra rb : Reg) (ds : BitVec 14),
    let base := if ra = 0 then 0 else s.gpr ra
    (let ea := base + (ds ++ 0#2).signExtend 64
     Readable .lwa ea 4 s →
      ∃ t, exec (.lwa rt ra ds) s = .next t ∧
        (t.gpr rt).toInt = signedOf 32 (modeSum s.le s.mem ea.toNat 4) ∧
        OnlyChanged s t [rt]) ∧
    (let ea := base + s.gpr rb
     Readable .lwax ea 4 s →
      ∃ t, exec (.lwax rt ra rb) s = .next t ∧
        (t.gpr rt).toInt = signedOf 32 (modeSum s.le s.mem ea.toNat 4) ∧
        OnlyChanged s t [rt])

/-- R118, R75, R77: `lwaux` completes on a valid form; RT receives the signed word and RA receives
EA. -/
def Obligations.WordAlgebraicUpdateIndexedSignExtends : Prop :=
  ∀ (s : State) (rt ra rb : Reg), ra ≠ 0 → ra ≠ rt →
    let ea := s.gpr ra + s.gpr rb
    Readable .lwaux ea 4 s →
      ∃ t, exec (.lwaux rt ra rb) s = .next t ∧
        (t.gpr rt).toInt = signedOf 32 (modeSum s.le s.mem ea.toNat 4) ∧ t.gpr ra = ea ∧
        OnlyChanged s t [rt, ra]

/-- R119, R120: `ld` and `ldx` complete; RT receives the doubleword at EA in the byte order of the
mode. -/
def Obligations.DoublewordLoadsFillRT : Prop :=
  ∀ (s : State) (rt ra rb : Reg) (ds : BitVec 14),
    let base := if ra = 0 then 0 else s.gpr ra
    (let ea := base + (ds ++ 0#2).signExtend 64
     Readable .ld ea 8 s →
      ∃ t, exec (.ld rt ra ds) s = .next t ∧
        (t.gpr rt).toNat = modeSum s.le s.mem ea.toNat 8 ∧ OnlyChanged s t [rt]) ∧
    (let ea := base + s.gpr rb
     Readable .ldx ea 8 s →
      ∃ t, exec (.ldx rt ra rb) s = .next t ∧
        (t.gpr rt).toNat = modeSum s.le s.mem ea.toNat 8 ∧ OnlyChanged s t [rt])

/-- R121, R122, R75: `ldu` and `ldux` complete on a valid form; RT receives the doubleword and RA
receives EA. -/
def Obligations.DoublewordUpdateLoadsFillRTAndRA : Prop :=
  ∀ (s : State) (rt ra rb : Reg) (ds : BitVec 14), ra ≠ 0 → ra ≠ rt →
    (let ea := s.gpr ra + (ds ++ 0#2).signExtend 64
     Readable .ldu ea 8 s →
      ∃ t, exec (.ldu rt ra ds) s = .next t ∧
        (t.gpr rt).toNat = modeSum s.le s.mem ea.toNat 8 ∧ t.gpr ra = ea ∧
        OnlyChanged s t [rt, ra]) ∧
    (let ea := s.gpr ra + s.gpr rb
     Readable .ldux ea 8 s →
      ∃ t, exec (.ldux rt ra rb) s = .next t ∧
        (t.gpr rt).toNat = modeSum s.le s.mem ea.toNat 8 ∧ t.gpr ra = ea ∧
        OnlyChanged s t [rt, ra])

/-- R123, R124: `lq` completes on a valid form; the even and the odd register of the pair receive
the two doublewords as the table of R124 says, in each mode; read as one number with the even register
on top, the pair is the quadword in the byte order of the mode.
That the pair is RTp and RTp + 1 is the decision D17 of the spec (notes/assumptions/24.md). -/
def Obligations.QuadwordLoadFillsThePair : Prop :=
  ∀ (s : State) (rtp ra : Reg) (dq : BitVec 12), rtp ≠ ra → rtp.val % 2 = 0 →
    let ea := (if ra = 0 then 0 else s.gpr ra) + (dq ++ 0#4).signExtend 64
    Readable .lq ea 16 s →
      ∃ t, exec (.lq rtp ra dq) s = .next t ∧
        (s.le = false →
          (t.gpr rtp).toNat = bigSum s.mem ea.toNat 8 ∧
          (t.gpr (rtp + 1)).toNat = bigSum s.mem (ea.toNat + 8) 8) ∧
        (s.le = true →
          (t.gpr rtp).toNat = littleSum s.mem (ea.toNat + 8) 8 ∧
          (t.gpr (rtp + 1)).toNat = littleSum s.mem ea.toNat 8) ∧
        (t.gpr rtp).toNat * 2 ^ 64 + (t.gpr (rtp + 1)).toNat = modeSum s.le s.mem ea.toNat 16 ∧
        OnlyChanged s t [rtp, rtp + 1]

/-- R126 to R129: the byte-reverse loads complete; RT receives the operand in the byte order
opposite to the mode, zero-extended.
The Little-Endian reading is the decision D21 of the spec (notes/assumptions/12.md). -/
def Obligations.ByteReverseLoadsReadTheOppositeOrder : Prop :=
  ∀ (s : State) (rt ra rb : Reg),
    let ea := (if ra = 0 then 0 else s.gpr ra) + s.gpr rb
    (Readable .lhbrx ea 2 s →
      ∃ t, exec (.lhbrx rt ra rb) s = .next t ∧
        (t.gpr rt).toNat = modeSum (!s.le) s.mem ea.toNat 2 ∧ OnlyChanged s t [rt]) ∧
    (Readable .lwbrx ea 4 s →
      ∃ t, exec (.lwbrx rt ra rb) s = .next t ∧
        (t.gpr rt).toNat = modeSum (!s.le) s.mem ea.toNat 4 ∧ OnlyChanged s t [rt]) ∧
    (Readable .ldbrx ea 8 s →
      ∃ t, exec (.ldbrx rt ra rb) s = .next t ∧
        (t.gpr rt).toNat = modeSum (!s.le) s.mem ea.toNat 8 ∧ OnlyChanged s t [rt])

/-- R130: `lmw` completes on a valid form in Big-Endian mode; every register from RT to 31 receives
its word, zero-extended, the address of the word stepping by 4 modulo 2^64. -/
def Obligations.LoadMultipleFillsRTTo31 : Prop :=
  ∀ (s : State) (rt ra : Reg) (d : BitVec 16), ra < rt → s.le = false →
    let ea := (if ra = 0 then 0 else s.gpr ra) + d.signExtend 64
    (∀ k < 32 - rt.val, Readable .lmw (ea + BitVec.ofNat 64 (4 * k)) 4 s) →
      ∃ t, exec (.lmw rt ra d) s = .next t ∧
        (∀ r : Reg, rt ≤ r →
          (t.gpr r).toNat =
            bigSum s.mem (ea + BitVec.ofNat 64 (4 * (r.val - rt.val))).toNat 4) ∧
        OnlyChanged s t ((List.finRange 32).filter (rt ≤ ·))

/-! ### How the target register is filled -/

/-- R76: a zero-extending load that completes fills the low bits of RT with the operand and every bit
above it with 0; a doubleword load fills all 64; `lmw` does so with each of its registers. -/
def Obligations.ZeroLoadsClearTheUpperBits : Prop :=
  ∀ (s t : State), s.fault = none → t.fault = none →
    (∀ (i : Instr) (rt : Reg),
      i.mnemonic ∈ [.lbz, .lbzx, .lbzu, .lbzux, .lhz, .lhzx, .lhzu, .lhzux, .lwz, .lwzx, .lwzu,
        .lwzux, .ld, .ldx, .ldu, .ldux] →
      i.writes.head? = some rt → exec i s = .next t →
        let n := i.mnemonic.bytes
        ∀ k < 64, (t.gpr rt).getLsbD k =
          if k < 8 * n then (storageValue s.le s.mem (i.ea s).toNat n).getLsbD k else false) ∧
    (∀ (rt ra : Reg) (d : BitVec 16), exec (.lmw rt ra d) s = .next t →
      ∀ r : Reg, rt ≤ r →
        let a := (eaD ra d s + BitVec.ofNat 64 (4 * (r.val - rt.val))).toNat
        ∀ k < 64, (t.gpr r).getLsbD k =
          if k < 32 then (storageValue s.le s.mem a 4).getLsbD k else false)

/-- R77: an algebraic load that completes fills the low bits of RT with the operand and every bit above
it with the operand's most significant bit, in the byte order of the mode. -/
def Obligations.AlgebraicLoadsCopyTheSign : Prop :=
  ∀ (i : Instr) (s t : State) (rt : Reg), s.fault = none → t.fault = none →
    i.mnemonic ∈ [.lha, .lhax, .lhau, .lhaux, .lwa, .lwax, .lwaux] →
    i.writes.head? = some rt → exec i s = .next t →
      let n := i.mnemonic.bytes
      let v := storageValue s.le s.mem (i.ea s).toNat n
      ∀ k < 64, (t.gpr rt).getLsbD k =
        if k < 8 * n then v.getLsbD k else v.getLsbD (8 * n - 1)

/-! ### Relations between loads -/

/-- R78: a byte-reverse load fills RT with the reversed value, zero-extended, and gives what the plain
load of the same width gives in the other mode. That this holds in Little-Endian mode too is the
decision D21 of the spec (notes/assumptions/12.md), over the byte order D4 (notes/assumptions/11.md). -/
def Obligations.ByteReverseIsThePlainLoadOfTheOtherMode : Prop :=
  ∀ (s : State) (rt ra rb : Reg),
    let ea := (if ra = 0 then 0 else s.gpr ra) + s.gpr rb
    let s' := { s with le := !s.le }
    (Readable .lhbrx ea 2 s → Readable .lhzx ea 2 s →
      ∃ t u, exec (.lhbrx rt ra rb) s = .next t ∧ exec (.lhzx rt ra rb) s' = .next u ∧
        t.gpr rt = (brev 2 (storageValue s.le s.mem ea.toNat 2)).setWidth 64 ∧ t.x = u.x) ∧
    (Readable .lwbrx ea 4 s → Readable .lwzx ea 4 s →
      ∃ t u, exec (.lwbrx rt ra rb) s = .next t ∧ exec (.lwzx rt ra rb) s' = .next u ∧
        t.gpr rt = (brev 4 (storageValue s.le s.mem ea.toNat 4)).setWidth 64 ∧ t.x = u.x) ∧
    (Readable .ldbrx ea 8 s → Readable .ldx ea 8 s →
      ∃ t u, exec (.ldbrx rt ra rb) s = .next t ∧ exec (.ldx rt ra rb) s' = .next u ∧
        t.gpr rt = (brev 8 (storageValue s.le s.mem ea.toNat 8)).setWidth 64 ∧ t.x = u.x)

/-- R38: where `ldx` reads V at an address, `lbzx` there and `lwzx` four bytes above read the parts
of V that R38 names, in each mode. -/
def Obligations.NarrowLoadsSeeTheirPartOfADoubleword : Prop :=
  ∀ (s : State) (rt ra rb rc : Reg),
    let ea := (if ra = 0 then 0 else s.gpr ra) + s.gpr rb
    s.gpr rc = s.gpr rb + 4 →
    Readable .ldx ea 8 s → Readable .lbzx ea 1 s → Readable .lwzx (ea + 4) 4 s →
      ∃ t u v, exec (.ldx rt ra rb) s = .next t ∧ exec (.lbzx rt ra rb) s = .next u ∧
        exec (.lwzx rt ra rc) s = .next v ∧
        (s.le = false →
          u.gpr rt = ((t.gpr rt).extractLsb' 56 8).setWidth 64 ∧
          v.gpr rt = ((t.gpr rt).extractLsb' 0 32).setWidth 64) ∧
        (s.le = true →
          u.gpr rt = ((t.gpr rt).extractLsb' 0 8).setWidth 64 ∧
          v.gpr rt = ((t.gpr rt).extractLsb' 32 32).setWidth 64)

/-! ### Whole-machine rules over every instruction -/

/-- R22, R24, R27, R46, R70, R79, R200: whatever instruction runs, a next state either completed
(the `pc` has advanced by 4, only the registers of the Writes column may differ, the fault status is
as before) or raised (nothing but the fault status differs); storage, mode and parameters never
change.
The advance of `pc`, the fault and the all-or-nothing are the decisions D7, D8, D15 of the spec
(notes/assumptions/2.md, 3.md, 15.md). -/
def Obligations.ExecCompletesOrRaisesAndNothingElse : Prop :=
  ∀ (i : Instr) (s t : State), exec i s = .next t →
    (t.mem = s.mem ∧ OnlyChanged s t i.writes) ∨
    (∃ f : Fault, f.pc = s.pc ∧ t = { s with fault := some f })

/-- R125, R202 (and R62, R201, R132): the invalid forms raise their faults, from the fields alone, in
every state; the state changes in nothing but the fault status.
That an invalid form raises is the decision D6, D19 of the spec (notes/assumptions/13.md). -/
def Obligations.InvalidFormsRaiseTheirFault : Prop :=
  ∀ (s : State) (rt ra rb : Reg) (d : BitVec 16) (ds : BitVec 14) (dq : BitVec 12),
    let invalid : Result := .next { s with fault := some (.invalidForm s.pc) }
    ((ra = 0 ∨ ra = rt) →
      exec (.lbzu rt ra d) s = invalid ∧ exec (.lbzux rt ra rb) s = invalid ∧
      exec (.lhzu rt ra d) s = invalid ∧ exec (.lhzux rt ra rb) s = invalid ∧
      exec (.lhau rt ra d) s = invalid ∧ exec (.lhaux rt ra rb) s = invalid ∧
      exec (.lwzu rt ra d) s = invalid ∧ exec (.lwzux rt ra rb) s = invalid ∧
      exec (.lwaux rt ra rb) s = invalid ∧
      exec (.ldu rt ra ds) s = invalid ∧ exec (.ldux rt ra rb) s = invalid) ∧
    (rt = ra →
      exec (.lq rt ra dq) s = .next { s with fault := some (.illegalInstruction s.pc) }) ∧
    (rt ≠ ra → rt.val % 2 = 1 → exec (.lq rt ra dq) s = invalid) ∧
    (rt ≤ ra → exec (.lmw rt ra d) s = invalid)

/-- R201: `IllegalInstruction` is raised by `lq` with RTp = RA and by nothing else, in every state that
holds no fault, and records the address of the instruction. That nothing else raises it is the model's
choice to keep `InvalidForm` apart, which R202 leaves free (D6), and that odd RTp = RA raises it is the
decision D19 of the spec (notes/assumptions/13.md). -/
def Obligations.IllegalInstructionIsRaisedByLqAlone : Prop :=
  ∀ (i : Instr) (s : State), s.fault = none →
    ((∃ r dq, i = .lq r r dq) →
      exec i s = .next { s with fault := some (.illegalInstruction s.pc) }) ∧
    (∀ t pc, exec i s = .next t → t.fault = some (.illegalInstruction pc) →
      pc = s.pc ∧ ∃ r dq, i = .lq r r dq)

/-- R80 and R201 to R204: an instruction raises a fault only for the cause that the cause table of
60_exceptions.md gives it; the record names the instruction at `pc` and, where it has an address, the
access of the instruction that fails: its effective address, for `lmw` the address of its first failing
word. The tests before the one that raises do not apply to that access (R36).
The records and the order of the tests are the decisions D5, D6, D7, D13, D16, D20 of the spec
(notes/assumptions/3.md, 4.md, 5.md, 13.md, 16.md). -/
def Obligations.RaisedFaultsHaveTheirCause : Prop :=
  ∀ (i : Instr) (s t : State) (f : Fault), s.fault = none → exec i s = .next t →
    t.fault = some f →
      f.pc = s.pc ∧
      match f with
      | .illegalInstruction _ => ∃ r dq, i = .lq r r dq
      | .invalidForm _ => i.wellFormed = false ∧ ¬ ∃ r dq, i = .lq r r dq
      | .alignment _ none => i.wellFormed = true ∧ i.mnemonic = .lmw ∧ s.le = true
      | .alignment _ (some a) =>
        i.wellFormed = true ∧ i.ReachesAccess s a ∧ a.toNat + i.mnemonic.bytes ≤ 2 ^ 64 ∧
          alignFault s.params i.mnemonic a i.mnemonic.bytes = true
      | .storageFault _ a =>
        i.wellFormed = true ∧ i.ReachesAccess s a ∧ a.toNat + i.mnemonic.bytes ≤ 2 ^ 64 ∧
          alignFault s.params i.mnemonic a i.mnemonic.bytes = false ∧
          ∃ k < i.mnemonic.bytes, accessible s.params (a.toNat + k) = false

/-- R62, R131, R255: an instruction completes only if its form is valid, and `lmw` only in
Big-Endian mode.
The faults are the decisions D6, D18 of the spec (notes/assumptions/13.md, 14.md). -/
def Obligations.CompletionNeedsAValidForm : Prop :=
  ∀ (i : Instr) (s t : State), s.fault = none → t.fault = none → exec i s = .next t →
    i.wellFormed = true ∧ (i.mnemonic = .lmw → s.le = false)

/-- R131: a valid form of `lmw` in Little-Endian mode raises `Alignment` without an address, whatever
storage and the registers hold; an invalid form raises `InvalidForm` in either mode.
The order of the tests is the decision D18 of the spec (notes/assumptions/14.md). -/
def Obligations.LoadMultipleInLittleEndianModeRaisesAlignment : Prop :=
  ∀ (s : State) (rt ra : Reg) (d : BitVec 16),
    (ra < rt → s.le = true →
      exec (.lmw rt ra d) s = .next { s with fault := some (.alignment s.pc none) }) ∧
    (rt ≤ ra → exec (.lmw rt ra d) s = .next { s with fault := some (.invalidForm s.pc) })

/-- R36, R43, R41, R44, R205: a valid form of a load with one access whose access fails is refused or
raises, the tests in the order of R36; nothing but the fault status changes, the base of an update
form included.
The tests and their order are the decisions D5, D13, D15, D16, D20 of the spec
(notes/assumptions/4.md, 5.md, 15.md, 16.md). -/
def Obligations.FailingAccessEndsTheLoad : Prop :=
  ∀ (i : Instr) (s : State), i.wellFormed = true → i.mnemonic ≠ .lmw →
    let ea := i.ea s
    let n := i.mnemonic.bytes
    (2 ^ 64 < ea.toNat + n → exec i s = .refused .addressWrap) ∧
    (ea.toNat + n ≤ 2 ^ 64 → alignFault s.params i.mnemonic ea n = true →
      exec i s = .next { s with fault := some (.alignment s.pc (some ea)) }) ∧
    (ea.toNat + n ≤ 2 ^ 64 → alignFault s.params i.mnemonic ea n = false →
      (∃ k < n, accessible s.params (ea.toNat + k) = false) →
      exec i s = .next { s with fault := some (.storageFault s.pc ea) })

/-- R130, R205, R70: `lmw` ends at the first word whose access fails, with that word's address, and
no register is written.
That nothing is written is the decision D15 of the spec (notes/assumptions/15.md). -/
def Obligations.LoadMultipleEndsAtTheFirstFailingWord : Prop :=
  ∀ (s : State) (rt ra : Reg) (d : BitVec 16) (k : Nat), ra < rt → s.le = false →
    k < 32 - rt.val →
    let word := fun j : Nat => eaD ra d s + BitVec.ofNat 64 (4 * j)
    (∀ j < k, Readable .lmw (word j) 4 s) →
    (2 ^ 64 < (word k).toNat + 4 → exec (.lmw rt ra d) s = .refused .addressWrap) ∧
    ((word k).toNat + 4 ≤ 2 ^ 64 → alignFault s.params .lmw (word k) 4 = true →
      exec (.lmw rt ra d) s =
        .next { s with fault := some (.alignment s.pc (some (word k))) }) ∧
    ((word k).toNat + 4 ≤ 2 ^ 64 → alignFault s.params .lmw (word k) 4 = false →
      (∃ b < 4, accessible s.params ((word k).toNat + b) = false) →
      exec (.lmw rt ra d) s = .next { s with fault := some (.storageFault s.pc (word k)) })

/-- R83: where an instruction completes, the old content of a register it writes and does not read
makes no difference. -/
def Obligations.OldTargetContentMakesNoDifference : Prop :=
  ∀ (i : Instr) (s t : State) (r : Reg) (v : Word), s.fault = none → t.fault = none →
    exec i s = .next t → r ∈ i.writes → r ∉ i.reads →
      exec i (s.setGpr r v) = .next t

/-- R22, R84: two states that agree on `pc`, mode, storage, fault status, parameters and the
registers of the Reads column complete alike, with the same values in the registers written. -/
def Obligations.ResultsDependOnlyOnTheRegistersRead : Prop :=
  ∀ (i : Instr) (s s' t : State), s.fault = none → t.fault = none →
    s'.pc = s.pc → s'.le = s.le → s'.mem = s.mem → s'.fault = s.fault → s'.params = s.params →
    (∀ r ∈ i.reads, s'.gpr r = s.gpr r) → exec i s = .next t →
      ∃ t', exec i s' = .next t' ∧ t'.fault = none ∧ ∀ r ∈ i.writes, t'.gpr r = t.gpr r

/-- R80: whether an instruction completes, raises or is refused does not depend on the bytes in
storage. -/
def Obligations.FaultsDoNotDependOnTheLoadedValue : Prop :=
  ∀ (i : Instr) (s : State) (m : Memory), s.fault = none →
    (∀ f, exec i s = .next { s with fault := some f } →
      exec i { s with mem := m } = .next { { s with mem := m } with fault := some f }) ∧
    (∀ r, exec i s = .refused r → exec i { s with mem := m } = .refused r) ∧
    (∀ t, exec i s = .next t → t.fault = none →
      ∃ u, exec i { s with mem := m } = .next u ∧ u.fault = none)

/-! ### Fetch and step -/

/-- R70, R50: when the four bytes at `pc` decode to an instruction, a step runs exactly it.
Fetch is the decision D8, D9 of the spec (notes/assumptions/2.md). -/
def Obligations.StepRunsTheDecodedInstruction : Prop :=
  ∀ (s : State) (i : Instr), s.fault = none → s.pc.toNat % 4 = 0 → s.pc.toNat ≠ 2 ^ 64 - 4 →
    (∀ k < 4, accessible s.params (s.pc.toNat + k) = true) →
    decodeBytes s.le (s.mem.bytesAt s.pc.toNat 4) = .ok i →
      step s = exec i s

/-- R50, R37, R60: a word placed at `pc` in the byte order of the mode is the word fetched there: the
next step runs its instruction, in both modes.
Fetch is the decision D9 of the spec; `withFetchWord` stands for the load of a program (notes/assumptions/2.md,
21.md). -/
def Obligations.PlacedInstructionIsTheOneThatRuns : Prop :=
  ∀ (s : State) (i : Instr), s.mem.wf → s.fault = none → s.pc.toNat % 4 = 0 →
    s.pc.toNat ≠ 2 ^ 64 - 4 → (∀ k < 4, accessible s.params (s.pc.toNat + k) = true) →
      step (s.withFetchWord 32 (encode i).toNat) = exec i (s.withFetchWord 32 (encode i).toNat)

/-- R23, R208: a step at a misaligned `pc` and a step at the top of the address space are refused.
The refusals are the decision D8 of the spec (notes/assumptions/2.md). -/
def Obligations.FetchIsRefusedAtABadPc : Prop :=
  ∀ s : State, s.fault = none →
    (s.pc.toNat % 4 ≠ 0 → step s = .refused .pcMisaligned) ∧
    (s.pc.toNat = 2 ^ 64 - 4 → step s = .refused .pcWrap)

/-- R50, R204: a fetch that touches an inaccessible byte raises `StorageFault(pc, pc)`.
The fault is the decision D13 of the spec (notes/assumptions/4.md). -/
def Obligations.FetchOfAnInaccessibleByteRaises : Prop :=
  ∀ s : State, s.fault = none → s.pc.toNat % 4 = 0 → s.pc.toNat ≠ 2 ^ 64 - 4 →
    (∃ k < 4, accessible s.params (s.pc.toNat + k) = false) →
      step s = .next { s with fault := some (.storageFault s.pc s.pc) }

/-- R65: a word in no row of the opcode table is refused, with no next state and no fault record.
The refusal is the decision D11 of the spec (notes/assumptions/17.md). -/
def Obligations.WordsOutsideTheTableAreRefused : Prop :=
  ∀ s : State, s.fault = none → s.pc.toNat % 4 = 0 → s.pc.toNat ≠ 2 ^ 64 - 4 →
    (∀ k < 4, accessible s.params (s.pc.toNat + k) = true) →
    (∀ row ∈ opcodeTable, ∀ w : InstrWord, w.toNat = modeSum s.le s.mem s.pc.toNat 4 →
      w &&& row.mask ≠ row.pattern) →
      step s = .refused .notInScope

/-- R200: faults are precise and terminal: a step that raises changes nothing but the fault status, the
record names the instruction at `pc`, the state has no further step and is no final state of a run.
The terminal fault is the decision D7 of the spec (notes/assumptions/3.md). -/
def Obligations.FaultsArePreciseAndTerminal : Prop :=
  ∀ (s t : State) (f : Fault), s.fault = none → step s = .next t → t.fault = some f →
    t = { s with fault := some f } ∧ f.pc = s.pc ∧ step t = .fault f ∧
      ∀ endPc k, runTo endPc k t = .terminal t

/-! ### Invariants and runs -/

/-- The invariant holds of the state after reset. Its `pc`, registers, mode and storage are the
model's choice (notes/assumptions 6 to 9), not the spec's. -/
def Obligations.ResetSatisfiesTheInvariant : Prop := Inv State.reset

/-- R23, R26, R200, R203: every step keeps the invariant, from every state that has it.
The canonical form is the model's own; the rest rests on the decisions D7, D8 (notes/assumptions/2.md, 3.md). -/
def Obligations.StepKeepsTheInvariant : Prop :=
  ∀ s t : State, Inv s → step s = .next t → Inv t

/-- R79, R23: `k` steps that end without a fault have advanced the `pc` by exactly `4k`, with no wrap;
R24, R46: mode, parameters and storage are those of the launch.
The advance of `pc` is the decision D8 of the spec (notes/assumptions/2.md). -/
def Obligations.RunIsAStraightLine : Prop :=
  ∀ (k : Nat) (s t : State), stepN k s = .next t → t.fault = none →
    t.pc.toNat = s.pc.toNat + 4 * k ∧ t.le = s.le ∧ t.mem = s.mem ∧ t.params = s.params

/-- R253: a program of `k` instructions launched under the premises of R252 is final at `end_pc` after
exactly `k` steps, or at a fault, or refused: it is never still running after `k` steps.
The end of a run is the decision D24 of the spec, `runTo` its form here (notes/assumptions/20.md). -/
def Obligations.LaunchedProgramEndsWithinItsLength : Prop :=
  ∀ (s : State) (base : Nat) (program : List InstrWord), LaunchPremises s base program →
    match runTo (BitVec.ofNat 64 (base + 4 * program.length)) program.length s with
    | .final t => t.fault = none ∧ t.pc = BitVec.ofNat 64 (base + 4 * program.length) ∧
        stepN program.length s = .next t
    | .terminal t => t.fault ≠ none
    | .refused _ => True
    | .running _ => False

/-- R252, R253, R50: the run of a launched program executes the program's own words: each of its
steps that is reached without a fault decodes the word of the program at that place.
The launch and the fetch are the decisions D9, D14 of the spec (notes/assumptions/2.md, 21.md). -/
def Obligations.LaunchedProgramRunsItsOwnWords : Prop :=
  ∀ (s : State) (base : Nat) (program : List InstrWord), LaunchPremises s base program →
    ∀ (k : Nat) (h : k < program.length) (t : State) (i : Instr),
      stepN k s = .next t → t.fault = none → decodeWord program[k] = .ok i →
        step t = exec i t
end

