-- ==== Sys2Proof/Laws/Encoding.lean ====
section
/-! SUPPORT. The encoder's words under the masks of the opcode table, form by form: what is left is
the primary opcode and the extended opcode, reserved bits 0 (spec/30_encoding.md R51 to R54, R61). -/

namespace Sys2Proof

/-- A D-form word under the D mask: its primary opcode. -/
theorem encodeD_masked (opcd : BitVec 6) (rt ra : Reg) (d : BitVec 16) :
    encodeD opcd rt ra d &&& 0xFC000000 = opcd ++ 0#26 := by
  unfold encodeD
  generalize regField rt = a
  generalize regField ra = b
  ext i hi
  simp only [BitVec.getElem_and, BitVec.getElem_append]
  interval_cases i <;> simp

/-- A DS-form word under the DS mask: its primary opcode and its XO. -/
theorem encodeDS_masked (opcd : BitVec 6) (rt ra : Reg) (ds : BitVec 14) (xo : BitVec 2) :
    encodeDS opcd rt ra ds xo &&& 0xFC000003 = opcd ++ 0#24 ++ xo := by
  unfold encodeDS
  generalize regField rt = a
  generalize regField ra = b
  ext i hi
  simp only [BitVec.getElem_and, BitVec.getElem_append]
  interval_cases i <;> simp

/-- A DQ-form word under the DQ mask: its primary opcode. -/
theorem encodeDQ_masked (opcd : BitVec 6) (rtp ra : Reg) (dq : BitVec 12) :
    encodeDQ opcd rtp ra dq &&& 0xFC00000F = opcd ++ 0#26 := by
  unfold encodeDQ
  generalize regField rtp = a
  generalize regField ra = b
  ext i hi
  simp only [BitVec.getElem_and, BitVec.getElem_append]
  interval_cases i <;> simp

/-- An X-form word under the X mask: its primary opcode and its XO. -/
theorem encodeX_masked (opcd : BitVec 6) (rt ra rb : Reg) (xo : BitVec 10) :
    encodeX opcd rt ra rb xo &&& 0xFC0007FF = opcd ++ 0#15 ++ xo ++ 0#1 := by
  unfold encodeX
  generalize regField rt = a
  generalize regField ra = b
  generalize regField rb = c
  ext i hi
  simp only [BitVec.getElem_and, BitVec.getElem_append]
  interval_cases i <;> simp

/-- No word selects two rows of the opcode table (R59). -/
theorem opcodeTable_pairwise_disjoint :
    opcodeTable.Pairwise fun r q => r.pattern &&& q.mask ≠ q.pattern &&& r.mask := by
  decide +kernel

end Sys2Proof
end

