-- ==== Sys2Proof/Laws/Memory.lean ====
section
/-! SUPPORT. The laws of storage: a read after a write, the canonical form is kept by every
operation, and equal contents are equal data. -/

namespace Sys2Proof.Machine

/-- A write leaves every other address alone. -/
theorem Memory.read_write_ne (m : Memory) {a a' : Nat} (b : Byte) (h : a' ≠ a) :
    (m.write a b).read a' = m.read a' := by
  induction m with
  | nil => simp only [Memory.write]; split <;> simp [Memory.read, Ne.symm h]
  | cons c rest ih =>
    obtain ⟨k, v⟩ := c
    simp only [Memory.write]
    have h' := Ne.symm h
    split_ifs with h1 h2 h3 h4 <;> simp only [Memory.read, ih]
    · rw [if_neg h']
    · rw [if_neg (h3 ▸ h')]
    · rw [if_neg h', if_neg (h3 ▸ h')]

/-- Below every listed address, storage reads as unlisted. -/
theorem Memory.read_of_lt (m : Memory) {a : Nat} (h : ∀ c ∈ m, a < c.1) :
    m.read a = Config.unlistedByte := by
  induction m with
  | nil => rfl
  | cons c rest ih =>
    simp only [List.mem_cons, forall_eq_or_imp] at h
    simp [Memory.read, Nat.ne_of_gt h.1, ih h.2]

/-- In canonical form, a read after a write to the same address gives the byte written. -/
theorem Memory.read_write_same (m : Memory) (a : Nat) (b : Byte)
    (h : m.Pairwise (fun p q => p.1 < q.1)) : (m.write a b).read a = b := by
  induction m with
  | nil => simp only [Memory.write]; split <;> simp_all [Memory.read]
  | cons c rest ih =>
    obtain ⟨k, v⟩ := c
    simp only [List.pairwise_cons] at h
    have hlt : a ≤ k → Memory.read rest a = Config.unlistedByte := fun hk =>
      Memory.read_of_lt rest fun c hc => lt_of_le_of_lt hk (h.1 c hc)
    simp only [Memory.write]
    split_ifs with h1 h2 h3 h4
    · have : k ≠ a := by omega
      simp [Memory.read, this, hlt (by omega), h2]
    · simp [Memory.read]
    · rw [h4]; exact hlt (by omega)
    · simp [Memory.read]
    · have : k ≠ a := by omega
      simp [Memory.read, this, ih h.2]

/-- Every entry after a write is the byte written, not the unlisted one, or an entry from before. -/
theorem Memory.mem_write {m : Memory} {a : Nat} {b : Byte} {c : Host.Cell}
    (hc : c ∈ m.write a b) : (c = (a, b) ∧ b ≠ Config.unlistedByte) ∨ c ∈ m := by
  induction m with
  | nil => simp only [Memory.write] at hc; split at hc <;> simp_all
  | cons d rest ih =>
    obtain ⟨k, v⟩ := d
    simp only [Memory.write] at hc
    split_ifs at hc <;> simp only [List.mem_cons] at hc ⊢
    · exact .inr hc
    · rcases hc with rfl | hc
      · exact .inl ⟨rfl, by assumption⟩
      · exact .inr hc
    · exact .inr (.inr hc)
    · rcases hc with rfl | hc
      · exact .inl ⟨rfl, by assumption⟩
      · exact .inr (.inr hc)
    · rcases hc with rfl | hc
      · exact .inr (.inl rfl)
      · exact (ih hc).imp_right .inr

/-- A write keeps the addresses strictly rising. -/
theorem Memory.write_pairwise {m : Memory} (a : Nat) (b : Byte)
    (h : m.Pairwise (fun p q => p.1 < q.1)) : (m.write a b).Pairwise (fun p q => p.1 < q.1) := by
  induction m with
  | nil => simp only [Memory.write]; split <;> simp
  | cons d rest ih =>
    obtain ⟨k, v⟩ := d
    have hp := h
    simp only [List.pairwise_cons] at h
    simp only [Memory.write]
    split_ifs with h1 h2 h3 h4
    · exact hp
    · refine List.pairwise_cons.2 ⟨fun c hc => ?_, hp⟩
      rcases List.mem_cons.1 hc with rfl | hc
      · exact h1
      · exact lt_trans h1 (h.1 c hc)
    · exact h.2
    · exact List.pairwise_cons.2 ⟨fun c hc => h3 ▸ h.1 c hc, h.2⟩
    · refine List.pairwise_cons.2 ⟨fun c hc => ?_, ih h.2⟩
      rcases Memory.mem_write hc with ⟨rfl, -⟩ | hc
      · simp only; omega
      · exact h.1 c hc

/-- A write inside the address space keeps the canonical form. -/
theorem Memory.write_wf {m : Memory} {a : Nat} (b : Byte) (ha : a < 2 ^ 64) (h : m.wf) :
    (m.write a b).wf := by
  refine ⟨Memory.write_pairwise a b h.1, fun c hc => ?_⟩
  rcases Memory.mem_write hc with ⟨rfl, hb⟩ | hc
  · exact ⟨ha, hb⟩
  · exact h.2 c hc

/-- Writing bytes inside the address space keeps the canonical form. -/
theorem Memory.writeBytes_wf {m : Memory} {a : Nat} (bs : List Byte) (ha : a + bs.length ≤ 2 ^ 64)
    (h : m.wf) : (m.writeBytes a bs).wf := by
  induction bs generalizing m a with
  | nil => exact h
  | cons b bs ih =>
    simp only [List.length_cons] at ha
    exact ih (by omega) (Memory.write_wf b (by omega) h)

/-- Writing bytes leaves the addresses outside them alone. -/
theorem Memory.read_writeBytes_outside {m : Memory} {a a' : Nat} (bs : List Byte)
    (h : a' < a ∨ a + bs.length ≤ a') : (m.writeBytes a bs).read a' = m.read a' := by
  induction bs generalizing m a with
  | nil => rfl
  | cons b bs ih =>
    simp only [List.length_cons] at h
    rw [Memory.writeBytes, ih (by omega), Memory.read_write_ne _ _ (by omega)]

/-- Each byte written reads back. -/
theorem Memory.read_writeBytes_inside {m : Memory} {a : Nat} (bs : List Byte) (i : Nat)
    (hi : i < bs.length) (h : m.Pairwise (fun p q => p.1 < q.1)) :
    (m.writeBytes a bs).read (a + i) = bs[i] := by
  induction bs generalizing m a i with
  | nil => simp at hi
  | cons b bs ih =>
    cases i with
    | zero =>
      rw [Memory.writeBytes, Memory.read_writeBytes_outside _ (by omega)]
      exact Memory.read_write_same m a b h
    | succ i =>
      simp only [List.length_cons] at hi
      have := ih (m := m.write a b) (a := a + 1) i (by omega) (Memory.write_pairwise a b h)
      rw [Memory.writeBytes, show a + (i + 1) = a + 1 + i by omega, this]
      rfl

/-- Bytes written are the bytes at that address. -/
theorem Memory.bytesAt_writeBytes {m : Memory} {a : Nat} (bs : List Byte)
    (h : m.Pairwise (fun p q => p.1 < q.1)) : (m.writeBytes a bs).bytesAt a bs.length = bs := by
  refine List.ext_getElem (by simp [Memory.bytesAt]) fun i hi _ => ?_
  simp only [Memory.bytesAt, List.length_map, List.length_range] at hi
  simp [Memory.bytesAt, Memory.read_writeBytes_inside bs i hi h]

/-- An entry of a strictly rising list is what its address reads as. -/
theorem Memory.read_of_mem {m : Memory} {c : Host.Cell} (h : m.Pairwise (fun p q => p.1 < q.1))
    (hc : c ∈ m) : m.read c.1 = c.2 := by
  induction m with
  | nil => simp at hc
  | cons d rest ih =>
    obtain ⟨k, v⟩ := d
    simp only [List.pairwise_cons] at h
    rcases List.mem_cons.1 hc with rfl | hc
    · simp [Memory.read]
    · simp [Memory.read, Nat.ne_of_lt (h.1 c hc), ih h.2 hc]

/-- In canonical form the entries are exactly the addresses that read as something else than an
unlisted one, with what they read as. -/
theorem Memory.mem_iff_read {m : Memory} (h : m.wf) (c : Host.Cell) :
    c ∈ m ↔ m.read c.1 = c.2 ∧ c.2 ≠ Config.unlistedByte := by
  refine ⟨fun hc => ⟨Memory.read_of_mem h.1 hc, (h.2 c hc).2⟩, fun ⟨hr, hn⟩ => ?_⟩
  clear h
  induction m with
  | nil => exact absurd hr.symm hn
  | cons d rest ih =>
    obtain ⟨k, v⟩ := d
    simp only [Memory.read] at hr
    split_ifs at hr with hk
    · exact List.mem_cons.2 (.inl (Prod.ext hk.symm hr.symm))
    · exact .tail _ (ih ⟨hr, hn⟩ hr)

/-- Storage in canonical form is determined by what its addresses read as. -/
theorem Memory.eq_of_read_eq {m m' : Memory} (h : m.wf) (h' : m'.wf)
    (hr : ∀ a, m.read a = m'.read a) : m = m' := by
  have : Std.Irrefl (fun p q : Host.Cell => p.1 < q.1) := ⟨fun p => lt_irrefl p.1⟩
  have : Std.Asymm (fun p q : Host.Cell => p.1 < q.1) := ⟨fun p q hpq hqp => by omega⟩
  exact h.1.eq_of_mem_iff h'.1 fun c => by
    rw [Memory.mem_iff_read h, Memory.mem_iff_read h', hr]

end Sys2Proof.Machine
end

