-- ==== Sys2Proof/Laws/State.lean ====
section
/-! SUPPORT. What each named operation on the state does to each component, one lemma for each, so
that no proof unfolds a record update; and register reads after register writes. -/

namespace Sys2Proof.Machine

/-! ### setGpr -/

@[simp] theorem State.setGpr_pc (s : State) (r : Reg) (v : Word) : (s.setGpr r v).pc = s.pc := rfl
@[simp] theorem State.setGpr_le (s : State) (r : Reg) (v : Word) : (s.setGpr r v).le = s.le := rfl
@[simp] theorem State.setGpr_mem (s : State) (r : Reg) (v : Word) :
    (s.setGpr r v).mem = s.mem := rfl
@[simp] theorem State.setGpr_fault (s : State) (r : Reg) (v : Word) :
    (s.setGpr r v).fault = s.fault := rfl
@[simp] theorem State.setGpr_params (s : State) (r : Reg) (v : Word) :
    (s.setGpr r v).params = s.params := rfl

/-- A register reads back what was written to it, register 0 included (R21). -/
@[simp] theorem State.gpr_setGpr_same (s : State) (r : Reg) (v : Word) :
    (s.setGpr r v).gpr r = v := by
  simp [State.gpr, State.setGpr, Vector.get_eq_getElem]

/-- A register write leaves every other register alone. -/
theorem State.gpr_setGpr_ne (s : State) {r r' : Reg} (v : Word) (h : r' ≠ r) :
    (s.setGpr r v).gpr r' = s.gpr r' := by
  simp only [State.gpr, State.setGpr, Vector.get_eq_getElem]
  exact Vector.getElem_set_ne _ _ (fun e => h (Fin.ext e.symm))

/-- Two states are equal when their components are, the registers one by one. -/
theorem State.ext_gpr {s t : State} (hx : ∀ r, s.gpr r = t.gpr r) (hpc : s.pc = t.pc)
    (hle : s.le = t.le) (hmem : s.mem = t.mem) (hf : s.fault = t.fault)
    (hp : s.params = t.params) : s = t := by
  obtain ⟨x, pc, le, mem, f, p⟩ := s
  obtain ⟨y, pc', le', mem', f', p'⟩ := t
  simp only [State.gpr] at *
  subst hpc hle hmem hf hp
  have : x = y := Vector.ext fun i hi => by
    simpa [Vector.get_eq_getElem] using hx ⟨i, hi⟩
  rw [this]

/-! ### setGprsFrom -/

@[simp] theorem State.setGprsFrom_pc (s : State) (r : Nat) (ws : List Word) :
    (s.setGprsFrom r ws).pc = s.pc := by
  induction ws generalizing s r with
  | nil => rfl
  | cons w ws ih => simp only [State.setGprsFrom]; split <;> simp [ih]

@[simp] theorem State.setGprsFrom_le (s : State) (r : Nat) (ws : List Word) :
    (s.setGprsFrom r ws).le = s.le := by
  induction ws generalizing s r with
  | nil => rfl
  | cons w ws ih => simp only [State.setGprsFrom]; split <;> simp [ih]

@[simp] theorem State.setGprsFrom_mem (s : State) (r : Nat) (ws : List Word) :
    (s.setGprsFrom r ws).mem = s.mem := by
  induction ws generalizing s r with
  | nil => rfl
  | cons w ws ih => simp only [State.setGprsFrom]; split <;> simp [ih]

@[simp] theorem State.setGprsFrom_fault (s : State) (r : Nat) (ws : List Word) :
    (s.setGprsFrom r ws).fault = s.fault := by
  induction ws generalizing s r with
  | nil => rfl
  | cons w ws ih => simp only [State.setGprsFrom]; split <;> simp [ih]

@[simp] theorem State.setGprsFrom_params (s : State) (r : Nat) (ws : List Word) :
    (s.setGprsFrom r ws).params = s.params := by
  induction ws generalizing s r with
  | nil => rfl
  | cons w ws ih => simp only [State.setGprsFrom]; split <;> simp [ih]

/-- What each register holds after the registers from `first` up were written (R130). -/
theorem State.gpr_setGprsFrom (s : State) (first : Nat) (ws : List Word) (r : Reg) :
    (s.setGprsFrom first ws).gpr r =
      if first ≤ r.val ∧ r.val < first + ws.length then ws.getD (r.val - first) 0
      else s.gpr r := by
  induction ws generalizing s first with
  | nil => simp [State.setGprsFrom]
  | cons w ws ih =>
    simp only [State.setGprsFrom, List.length_cons]
    have hr := r.isLt
    split_ifs with h1 h2 h2
    · rw [ih]
      split_ifs with h3
      · rw [show r.val - first = r.val - (first + 1) + 1 by omega]; simp
      · have e : r = ⟨first, h1⟩ := Fin.ext (by simp only; omega)
        subst e; simp
    · rw [ih, if_neg (by omega), State.gpr_setGpr_ne]
      rintro rfl; simp at h2
    · omega
    · rfl

/-! ### advance -/

@[simp] theorem State.advance_pc (s : State) : s.advance.pc = s.pc + 4 := rfl
@[simp] theorem State.advance_x (s : State) : s.advance.x = s.x := rfl
@[simp] theorem State.advance_gpr (s : State) (r : Reg) : s.advance.gpr r = s.gpr r := rfl
@[simp] theorem State.advance_le (s : State) : s.advance.le = s.le := rfl
@[simp] theorem State.advance_mem (s : State) : s.advance.mem = s.mem := rfl
@[simp] theorem State.advance_fault (s : State) : s.advance.fault = s.fault := rfl
@[simp] theorem State.advance_params (s : State) : s.advance.params = s.params := rfl

/-! ### the pair of `lq` -/

@[simp] theorem State.setGprPair_pc (s : State) (r : Reg) (q : BitVec 128) :
    (s.setGprPair r q).pc = s.pc := rfl
@[simp] theorem State.setGprPair_le (s : State) (r : Reg) (q : BitVec 128) :
    (s.setGprPair r q).le = s.le := rfl
@[simp] theorem State.setGprPair_mem (s : State) (r : Reg) (q : BitVec 128) :
    (s.setGprPair r q).mem = s.mem := rfl
@[simp] theorem State.setGprPair_fault (s : State) (r : Reg) (q : BitVec 128) :
    (s.setGprPair r q).fault = s.fault := rfl
@[simp] theorem State.setGprPair_params (s : State) (r : Reg) (q : BitVec 128) :
    (s.setGprPair r q).params = s.params := rfl

/-- What each register holds after the pair was written (R124). -/
theorem State.gpr_setGprPair (s : State) (rtp : Reg) (q : BitVec 128) (r : Reg) :
    (s.setGprPair rtp q).gpr r =
      if r = rtp + 1 then q.extractLsb' 0 64
      else if r = rtp then q.extractLsb' 64 64 else s.gpr r := by
  unfold State.setGprPair
  by_cases h1 : r = rtp + 1
  · subst h1; simp
  · rw [State.gpr_setGpr_ne _ _ h1, if_neg h1]
    by_cases h2 : r = rtp
    · subst h2; simp
    · rw [State.gpr_setGpr_ne _ _ h2, if_neg h2]

/-! ### placeWord -/

@[simp] theorem placeWord_x (s : State) (w : InstrWord) : (placeWord s w).x = s.x := rfl
@[simp] theorem placeWord_pc (s : State) (w : InstrWord) : (placeWord s w).pc = s.pc := rfl
@[simp] theorem placeWord_le (s : State) (w : InstrWord) : (placeWord s w).le = s.le := rfl
@[simp] theorem placeWord_fault (s : State) (w : InstrWord) : (placeWord s w).fault = s.fault := rfl
@[simp] theorem placeWord_params (s : State) (w : InstrWord) :
    (placeWord s w).params = s.params := rfl

end Sys2Proof.Machine
end

