-- ==== Sys2Proof/Laws/Ops.lean ====
section
/-! SUPPORT. For each shared operation, and for the meanings of `lq` and `lmw`, one lemma that says once
everything it can do. -/

namespace Sys2Proof.Machine

/-! ### MemRead -/

/-- An access none of whose tests applies gives the value of R37 (R36). -/
theorem memRead_of_readable {m : Mnemonic} {a : Word} {n : Nat} {s : State}
    (h : Readable m a n s) : memRead m a n s = .ok (storageValue s.le s.mem a.toNat n) := by
  obtain ⟨h1, h2, h3⟩ := h
  have h4 : ((List.range n).any fun i => !accessible s.params (a.toNat + i)) = false := by
    simpa using h3
  rw [memRead, if_neg (by omega), h2, h4]
  rfl

/-- Everything `MemRead` can answer, with the tests of R36 in their order. -/
theorem memRead_cases (m : Mnemonic) (a : Word) (n : Nat) (s : State) :
    (2 ^ 64 < a.toNat + n ∧ memRead m a n s = .error (.refuse .addressWrap)) ∨
    (a.toNat + n ≤ 2 ^ 64 ∧ alignFault s.params m a n = true ∧
      memRead m a n s = .error (.raise (.alignment s.pc (some a)))) ∨
    (a.toNat + n ≤ 2 ^ 64 ∧ alignFault s.params m a n = false ∧
      (∃ i < n, accessible s.params (a.toNat + i) = false) ∧
      memRead m a n s = .error (.raise (.storageFault s.pc a))) ∨
    (Readable m a n s ∧ memRead m a n s = .ok (storageValue s.le s.mem a.toNat n)) := by
  by_cases h1 : 2 ^ 64 < a.toNat + n
  · exact .inl ⟨h1, by rw [memRead, if_pos h1]⟩
  have h1' : a.toNat + n ≤ 2 ^ 64 := by omega
  cases h2 : alignFault s.params m a n
  · by_cases h3 : ∃ i < n, accessible s.params (a.toNat + i) = false
    · refine .inr (.inr (.inl ⟨h1', rfl, h3, ?_⟩))
      rw [memRead, if_neg h1, h2, if_neg (by simp), if_pos]
      simpa using h3
    · have hr : Readable m a n s := ⟨h1', h2, by simpa using h3⟩
      exact .inr (.inr (.inr ⟨hr, memRead_of_readable hr⟩))
  · exact .inr (.inl ⟨h1', rfl, by rw [memRead, if_neg h1, h2, if_pos rfl]⟩)

/-- A record that `MemRead` raises names the instruction at `pc` and carries an address. -/
theorem memRead_raise {m : Mnemonic} {a : Word} {n : Nat} {s : State} {f : Fault}
    (h : memRead m a n s = .error (.raise f)) :
    f = .alignment s.pc (some a) ∨ f = .storageFault s.pc a := by
  rcases memRead_cases m a n s with ⟨-, e⟩ | ⟨-, -, e⟩ | ⟨-, -, -, e⟩ | ⟨-, e⟩ <;>
    simp_all

/-! ### Carrying on with a value -/

@[simp] theorem withValue_ok {α : Type} (a : α) (s : State) (k : α → Result) :
    withValue (.ok a) s k = k a := rfl

@[simp] theorem withValue_raise {α : Type} (f : Fault) (s : State) (k : α → Result) :
    withValue (.error (.raise f)) s k = .next { s with fault := some f } := rfl

@[simp] theorem withValue_refuse {α : Type} (r : Refusal) (s : State) (k : α → Result) :
    withValue (.error (.refuse r)) s k = .refused r := rfl

/-- Raising is a next state that differs in the fault status alone (R200). -/
theorem raise_eq (f : Fault) (s : State) : raise f s = .next { s with fault := some f } := rfl

/-! ### Loads -/

/-- A load without update whose access is readable completes. -/
theorem loadInto_of_readable {m : Mnemonic} {n : Nat} {ea : Word} {s : State}
    (fill : BitVec (8 * n) → Word) (rt : Reg) (h : Readable m ea n s) :
    loadInto m n fill rt ea s =
      .next ((s.setGpr rt (fill (storageValue s.le s.mem ea.toNat n))).advance) := by
  rw [loadInto, memRead_of_readable h, withValue_ok]

/-- Everything a load without update can do. -/
theorem loadInto_cases (m : Mnemonic) (n : Nat) (fill : BitVec (8 * n) → Word) (rt : Reg)
    (ea : Word) (s : State) :
    (Readable m ea n s ∧ loadInto m n fill rt ea s =
      .next ((s.setGpr rt (fill (storageValue s.le s.mem ea.toNat n))).advance)) ∨
    (∃ f, memRead m ea n s = .error (.raise f) ∧
      loadInto m n fill rt ea s = .next { s with fault := some f }) ∨
    (2 ^ 64 < ea.toNat + n ∧ loadInto m n fill rt ea s = .refused .addressWrap) := by
  rcases memRead_cases m ea n s with ⟨h, e⟩ | ⟨-, -, e⟩ | ⟨-, -, -, e⟩ | ⟨h, -⟩
  · exact .inr (.inr ⟨h, by rw [loadInto, e, withValue_refuse]⟩)
  · exact .inr (.inl ⟨_, e, by rw [loadInto, e, withValue_raise]⟩)
  · exact .inr (.inl ⟨_, e, by rw [loadInto, e, withValue_raise]⟩)
  · exact .inl ⟨h, loadInto_of_readable fill rt h⟩

/-- An invalid update form raises `InvalidForm` (R62). -/
theorem loadIntoUpdate_of_invalid {m : Mnemonic} {n : Nat} {rt ra : Reg} {s : State}
    (fill : BitVec (8 * n) → Word) (ea : Word) (h : ra = 0 ∨ ra = rt) :
    loadIntoUpdate m n fill rt ra ea s = .next { s with fault := some (.invalidForm s.pc) } := by
  rw [loadIntoUpdate, if_pos h, raise_eq]

/-- A valid update form whose access is readable completes. -/
theorem loadIntoUpdate_of_readable {m : Mnemonic} {n : Nat} {rt ra : Reg} {ea : Word} {s : State}
    (fill : BitVec (8 * n) → Word) (h0 : ra ≠ 0) (ht : ra ≠ rt) (h : Readable m ea n s) :
    loadIntoUpdate m n fill rt ra ea s =
      .next (((s.setGpr rt (fill (storageValue s.le s.mem ea.toNat n))).setGpr ra ea).advance) := by
  rw [loadIntoUpdate, if_neg (by simp [h0, ht]), memRead_of_readable h, withValue_ok]

/-- Everything a load with update can do. -/
theorem loadIntoUpdate_cases (m : Mnemonic) (n : Nat) (fill : BitVec (8 * n) → Word) (rt ra : Reg)
    (ea : Word) (s : State) :
    ((ra = 0 ∨ ra = rt) ∧ loadIntoUpdate m n fill rt ra ea s =
      .next { s with fault := some (.invalidForm s.pc) }) ∨
    (ra ≠ 0 ∧ ra ≠ rt ∧
      ((Readable m ea n s ∧ loadIntoUpdate m n fill rt ra ea s =
        .next (((s.setGpr rt (fill (storageValue s.le s.mem ea.toNat n))).setGpr ra ea).advance)) ∨
      (∃ f, memRead m ea n s = .error (.raise f) ∧
        loadIntoUpdate m n fill rt ra ea s = .next { s with fault := some f }) ∨
      (2 ^ 64 < ea.toNat + n ∧ loadIntoUpdate m n fill rt ra ea s = .refused .addressWrap))) := by
  by_cases hv : ra = 0 ∨ ra = rt
  · exact .inl ⟨hv, loadIntoUpdate_of_invalid fill ea hv⟩
  have h0 : ra ≠ 0 := fun h => hv (.inl h)
  have ht : ra ≠ rt := fun h => hv (.inr h)
  refine .inr ⟨h0, ht, ?_⟩
  rcases memRead_cases m ea n s with ⟨h, e⟩ | ⟨-, -, e⟩ | ⟨-, -, -, e⟩ | ⟨h, -⟩
  · exact .inr (.inr ⟨h, by rw [loadIntoUpdate, if_neg hv, e, withValue_refuse]⟩)
  · exact .inr (.inl ⟨_, e, by rw [loadIntoUpdate, if_neg hv, e, withValue_raise]⟩)
  · exact .inr (.inl ⟨_, e, by rw [loadIntoUpdate, if_neg hv, e, withValue_raise]⟩)
  · exact .inl ⟨h, loadIntoUpdate_of_readable fill h0 ht h⟩

/-! ### The words of `lmw` -/

/-- The address of word 0 from `a` is `a`. -/
theorem wordAddress_zero (a : Word) : a + BitVec.ofNat 64 (4 * 0) = a := by simp

/-- The address of word `k + 1` from `a` is that of word `k` from `a + 4`. -/
theorem wordAddress_succ (a : Word) (k : Nat) :
    a + BitVec.ofNat 64 (4 * (k + 1)) = a + 4 + BitVec.ofNat 64 (4 * k) := by
  rw [Nat.mul_add, BitVec.ofNat_add, BitVec.add_comm (BitVec.ofNat 64 (4 * k)), ← BitVec.add_assoc]
  rfl

/-- Words all of which are readable are read, in ascending order (R130). -/
theorem readWords_of_readable {m : Mnemonic} {s : State} (count : Nat) (a : Word)
    (h : ∀ k < count, Readable m (a + BitVec.ofNat 64 (4 * k)) 4 s) :
    readWords m a s count = .ok ((List.range count).map fun k =>
      storageValue s.le s.mem (a + BitVec.ofNat 64 (4 * k)).toNat 4) := by
  induction count generalizing a with
  | zero => rfl
  | succ c ih =>
    have h0 := h 0 (by omega)
    rw [wordAddress_zero] at h0
    have hs := ih (a + 4) fun k hk => wordAddress_succ a k ▸ h (k + 1) (by omega)
    rw [readWords, memRead_of_readable h0]
    simp only [hs]
    rw [List.range_succ_eq_map]
    simp only [List.map_cons, List.map_map, Function.comp_def, Nat.succ_eq_add_one,
      wordAddress_succ, wordAddress_zero]

/-- Reading words ends at the first whose access fails, as that access says (R130). -/
theorem readWords_of_failing {m : Mnemonic} {s : State} {e : Stop} (count : Nat) (a : Word) (k : Nat)
    (hk : k < count) (h : ∀ j < k, Readable m (a + BitVec.ofNat 64 (4 * j)) 4 s)
    (he : memRead m (a + BitVec.ofNat 64 (4 * k)) 4 s = .error e) :
    readWords m a s count = .error e := by
  induction count generalizing a k with
  | zero => omega
  | succ c ih =>
    cases k with
    | zero =>
      rw [wordAddress_zero] at he
      rw [readWords, he]
    | succ k =>
      have h0 := h 0 (by omega)
      rw [wordAddress_zero] at h0
      have hs := ih (a + 4) k (by omega)
        (fun j hj => wordAddress_succ a j ▸ h (j + 1) (by omega)) (wordAddress_succ a k ▸ he)
      rw [readWords, memRead_of_readable h0]
      simp only [hs]

/-- Everything reading words can do: all of them are readable and read, or the first that is not
ends it. -/
theorem readWords_cases (m : Mnemonic) (a : Word) (s : State) (count : Nat) :
    ((∀ k < count, Readable m (a + BitVec.ofNat 64 (4 * k)) 4 s) ∧
      readWords m a s count = .ok ((List.range count).map fun k =>
        storageValue s.le s.mem (a + BitVec.ofNat 64 (4 * k)).toNat 4)) ∨
    (∃ k < count, ∃ e, (∀ j < k, Readable m (a + BitVec.ofNat 64 (4 * j)) 4 s) ∧
      memRead m (a + BitVec.ofNat 64 (4 * k)) 4 s = .error e ∧
      readWords m a s count = .error e) := by
  by_cases h : ∀ k < count, Readable m (a + BitVec.ofNat 64 (4 * k)) 4 s
  · exact .inl ⟨h, readWords_of_readable count a h⟩
  · have hex : ∃ k, k < count ∧ ¬ Readable m (a + BitVec.ofNat 64 (4 * k)) 4 s := by
      by_contra hc
      exact h fun k hk => by_contra fun hn => hc ⟨k, hk, hn⟩
    obtain ⟨hk, hn⟩ := Nat.find_spec hex
    have hlt : ∀ j < Nat.find hex, Readable m (a + BitVec.ofNat 64 (4 * j)) 4 s := fun j hj =>
      by_contra fun hc => Nat.find_min hex hj ⟨by omega, hc⟩
    rcases memRead_cases m (a + BitVec.ofNat 64 (4 * Nat.find hex)) 4 s with
      ⟨-, e⟩ | ⟨-, -, e⟩ | ⟨-, -, -, e⟩ | ⟨hr, -⟩
    · exact .inr ⟨_, hk, _, hlt, e, readWords_of_failing count a _ hk hlt e⟩
    · exact .inr ⟨_, hk, _, hlt, e, readWords_of_failing count a _ hk hlt e⟩
    · exact .inr ⟨_, hk, _, hlt, e, readWords_of_failing count a _ hk hlt e⟩
    · exact absurd hr hn

/-! ### The meanings with several parts -/

/-- Everything `lq` can do, with its tests in their order (R123, R125). -/
theorem execLq_cases (rtp ra : Reg) (dq : BitVec 12) (s : State) :
    (rtp = ra ∧ execLq rtp ra dq s =
      .next { s with fault := some (.illegalInstruction s.pc) }) ∨
    (rtp ≠ ra ∧ rtp.val % 2 = 1 ∧ execLq rtp ra dq s =
      .next { s with fault := some (.invalidForm s.pc) }) ∨
    (rtp ≠ ra ∧ rtp.val % 2 = 0 ∧
      ((Readable .lq (eaDQ ra dq s) 16 s ∧ execLq rtp ra dq s =
        .next ((s.setGprPair rtp (storageValue s.le s.mem (eaDQ ra dq s).toNat 16)).advance)) ∨
      (∃ f, memRead .lq (eaDQ ra dq s) 16 s = .error (.raise f) ∧
        execLq rtp ra dq s = .next { s with fault := some f }) ∨
      (2 ^ 64 < (eaDQ ra dq s).toNat + 16 ∧ execLq rtp ra dq s = .refused .addressWrap))) := by
  by_cases h1 : rtp = ra
  · exact .inl ⟨h1, by rw [execLq, if_pos h1]; rfl⟩
  by_cases h2 : rtp.val % 2 = 1
  · exact .inr (.inl ⟨h1, h2, by rw [execLq, if_neg h1, if_pos h2]; rfl⟩)
  refine .inr (.inr ⟨h1, by omega, ?_⟩)
  rw [execLq, if_neg h1, if_neg h2]
  rcases memRead_cases .lq (eaDQ ra dq s) 16 s with ⟨h, e⟩ | ⟨-, -, e⟩ | ⟨-, -, -, e⟩ | ⟨h, e⟩
  · exact .inr (.inr ⟨h, by rw [e, withValue_refuse]⟩)
  · exact .inr (.inl ⟨_, e, by rw [e, withValue_raise]⟩)
  · exact .inr (.inl ⟨_, e, by rw [e, withValue_raise]⟩)
  · exact .inl ⟨h, by rw [e, withValue_ok]⟩

/-- Everything `lmw` can do, with its tests in their order (R130, R131, R132). -/
theorem execLmw_cases (rt ra : Reg) (d : BitVec 16) (s : State) :
    let word := fun k : Nat => eaD ra d s + BitVec.ofNat 64 (4 * k)
    (rt ≤ ra ∧ execLmw rt ra d s = .next { s with fault := some (.invalidForm s.pc) }) ∨
    (ra < rt ∧ s.le = true ∧
      execLmw rt ra d s = .next { s with fault := some (.alignment s.pc none) }) ∨
    (ra < rt ∧ s.le = false ∧
      (((∀ k < 32 - rt.val, Readable .lmw (word k) 4 s) ∧ execLmw rt ra d s =
        .next ((s.setGprsFrom rt.val (((List.range (32 - rt.val)).map fun k =>
          storageValue s.le s.mem (word k).toNat 4).map zext)).advance)) ∨
      (∃ k < 32 - rt.val, (∀ j < k, Readable .lmw (word j) 4 s) ∧
        ((∃ f, memRead .lmw (word k) 4 s = .error (.raise f) ∧
          execLmw rt ra d s = .next { s with fault := some f }) ∨
        (2 ^ 64 < (word k).toNat + 4 ∧ execLmw rt ra d s = .refused .addressWrap))))) := by
  intro word
  by_cases h1 : rt ≤ ra
  · exact .inl ⟨h1, by rw [execLmw, if_pos h1]; rfl⟩
  by_cases h2 : s.le = true
  · exact .inr (.inl ⟨not_le.1 h1, h2, by rw [execLmw, if_neg h1, if_pos h2]; rfl⟩)
  refine .inr (.inr ⟨not_le.1 h1, by simpa using h2, ?_⟩)
  rw [execLmw, if_neg h1, if_neg h2]
  rcases readWords_cases .lmw (eaD ra d s) s (32 - rt.val) with ⟨h, e⟩ | ⟨k, hk, e, hj, he, hw⟩
  · exact .inl ⟨h, by rw [e, withValue_ok]⟩
  · refine .inr ⟨k, hk, hj, ?_⟩
    rw [hw]
    rcases memRead_cases .lmw (word k) 4 s with ⟨h, e'⟩ | ⟨-, -, e'⟩ | ⟨-, -, -, e'⟩ | ⟨-, e'⟩ <;>
      rw [he] at e' <;> cases e'
    · exact .inr ⟨h, by rw [withValue_refuse]⟩
    · exact .inl ⟨_, he, by rw [withValue_raise]⟩
    · exact .inl ⟨_, he, by rw [withValue_raise]⟩

/-! ### Fetch -/

/-- Everything fetch can answer, with its tests in their order (R23, R50). -/
theorem fetch_cases (s : State) :
    (s.pc.toNat % 4 ≠ 0 ∧ fetch s = .error (.refuse .pcMisaligned)) ∨
    (s.pc.toNat = 2 ^ 64 - 4 ∧ fetch s = .error (.refuse .pcWrap)) ∨
    (s.pc.toNat % 4 = 0 ∧ s.pc.toNat ≠ 2 ^ 64 - 4 ∧
      (∃ k < 4, accessible s.params (s.pc.toNat + k) = false) ∧
      fetch s = .error (.raise (.storageFault s.pc s.pc))) ∨
    (s.pc.toNat % 4 = 0 ∧ s.pc.toNat ≠ 2 ^ 64 - 4 ∧
      (∀ k < 4, accessible s.params (s.pc.toNat + k) = true) ∧
      fetch s = .ok (storageValue s.le s.mem s.pc.toNat 4)) := by
  by_cases h1 : s.pc.toNat % 4 ≠ 0
  · exact .inl ⟨h1, by rw [fetch, if_pos h1]⟩
  by_cases h2 : s.pc.toNat = 2 ^ 64 - 4
  · exact .inr (.inl ⟨h2, by rw [fetch, if_neg h1, if_pos h2]⟩)
  have h1' : s.pc.toNat % 4 = 0 := by omega
  by_cases h3 : ∃ k < 4, accessible s.params (s.pc.toNat + k) = false
  · refine .inr (.inr (.inl ⟨h1', h2, h3, ?_⟩))
    rw [fetch, if_neg h1, if_neg h2, if_pos]
    simpa using h3
  · refine .inr (.inr (.inr ⟨h1', h2, by simpa using h3, ?_⟩))
    rw [fetch, if_neg h1, if_neg h2, if_neg]
    simpa using h3

end Sys2Proof.Machine
end

