-- ==== Sys2Proof/Laws/PerInstr.lean ====
section
/-! SUPPORT. The families of facts about an instruction as syntax, one lemma for each constructor. -/

/-- The word of the instruction selects the row of its mnemonic (spec/30_encoding.md R59): its fixed
bits are the row's, whatever the operands. -/
def Sys2Proof.Laws.EncodingCarriesRow.Statement (i : Sys2Proof.Instr) : Prop :=
  ∃ row ∈ Sys2Proof.opcodeTable, row.mnemonic = i.mnemonic ∧
    Sys2Proof.encode i &&& row.mask = row.pattern

namespace Sys2Proof.Laws

theorem EncodingCarriesRow.lbz (rt ra : Reg) (d : BitVec 16) :
    EncodingCarriesRow.Statement (.lbz rt ra d) :=
  ⟨rowD .lbz 0x88000000, by simp [opcodeTable], rfl, encodeD_masked 34 rt ra d⟩

theorem EncodingCarriesRow.lbzx (rt ra rb : Reg) :
    EncodingCarriesRow.Statement (.lbzx rt ra rb) :=
  ⟨rowX .lbzx 0x7C0000AE, by simp [opcodeTable], rfl, encodeX_masked 31 rt ra rb 87⟩

theorem EncodingCarriesRow.lbzu (rt ra : Reg) (d : BitVec 16) :
    EncodingCarriesRow.Statement (.lbzu rt ra d) :=
  ⟨rowD .lbzu 0x8C000000, by simp [opcodeTable], rfl, encodeD_masked 35 rt ra d⟩

theorem EncodingCarriesRow.lbzux (rt ra rb : Reg) :
    EncodingCarriesRow.Statement (.lbzux rt ra rb) :=
  ⟨rowX .lbzux 0x7C0000EE, by simp [opcodeTable], rfl, encodeX_masked 31 rt ra rb 119⟩

theorem EncodingCarriesRow.lhz (rt ra : Reg) (d : BitVec 16) :
    EncodingCarriesRow.Statement (.lhz rt ra d) :=
  ⟨rowD .lhz 0xA0000000, by simp [opcodeTable], rfl, encodeD_masked 40 rt ra d⟩

theorem EncodingCarriesRow.lhzx (rt ra rb : Reg) :
    EncodingCarriesRow.Statement (.lhzx rt ra rb) :=
  ⟨rowX .lhzx 0x7C00022E, by simp [opcodeTable], rfl, encodeX_masked 31 rt ra rb 279⟩

theorem EncodingCarriesRow.lhzu (rt ra : Reg) (d : BitVec 16) :
    EncodingCarriesRow.Statement (.lhzu rt ra d) :=
  ⟨rowD .lhzu 0xA4000000, by simp [opcodeTable], rfl, encodeD_masked 41 rt ra d⟩

theorem EncodingCarriesRow.lhzux (rt ra rb : Reg) :
    EncodingCarriesRow.Statement (.lhzux rt ra rb) :=
  ⟨rowX .lhzux 0x7C00026E, by simp [opcodeTable], rfl, encodeX_masked 31 rt ra rb 311⟩

theorem EncodingCarriesRow.lha (rt ra : Reg) (d : BitVec 16) :
    EncodingCarriesRow.Statement (.lha rt ra d) :=
  ⟨rowD .lha 0xA8000000, by simp [opcodeTable], rfl, encodeD_masked 42 rt ra d⟩

theorem EncodingCarriesRow.lhax (rt ra rb : Reg) :
    EncodingCarriesRow.Statement (.lhax rt ra rb) :=
  ⟨rowX .lhax 0x7C0002AE, by simp [opcodeTable], rfl, encodeX_masked 31 rt ra rb 343⟩

theorem EncodingCarriesRow.lhau (rt ra : Reg) (d : BitVec 16) :
    EncodingCarriesRow.Statement (.lhau rt ra d) :=
  ⟨rowD .lhau 0xAC000000, by simp [opcodeTable], rfl, encodeD_masked 43 rt ra d⟩

theorem EncodingCarriesRow.lhaux (rt ra rb : Reg) :
    EncodingCarriesRow.Statement (.lhaux rt ra rb) :=
  ⟨rowX .lhaux 0x7C0002EE, by simp [opcodeTable], rfl, encodeX_masked 31 rt ra rb 375⟩

theorem EncodingCarriesRow.lwz (rt ra : Reg) (d : BitVec 16) :
    EncodingCarriesRow.Statement (.lwz rt ra d) :=
  ⟨rowD .lwz 0x80000000, by simp [opcodeTable], rfl, encodeD_masked 32 rt ra d⟩

theorem EncodingCarriesRow.lwzx (rt ra rb : Reg) :
    EncodingCarriesRow.Statement (.lwzx rt ra rb) :=
  ⟨rowX .lwzx 0x7C00002E, by simp [opcodeTable], rfl, encodeX_masked 31 rt ra rb 23⟩

theorem EncodingCarriesRow.lwzu (rt ra : Reg) (d : BitVec 16) :
    EncodingCarriesRow.Statement (.lwzu rt ra d) :=
  ⟨rowD .lwzu 0x84000000, by simp [opcodeTable], rfl, encodeD_masked 33 rt ra d⟩

theorem EncodingCarriesRow.lwzux (rt ra rb : Reg) :
    EncodingCarriesRow.Statement (.lwzux rt ra rb) :=
  ⟨rowX .lwzux 0x7C00006E, by simp [opcodeTable], rfl, encodeX_masked 31 rt ra rb 55⟩

theorem EncodingCarriesRow.lwa (rt ra : Reg) (ds : BitVec 14) :
    EncodingCarriesRow.Statement (.lwa rt ra ds) :=
  ⟨rowDS .lwa 0xE8000002, by simp [opcodeTable], rfl, encodeDS_masked 58 rt ra ds 2⟩

theorem EncodingCarriesRow.lwax (rt ra rb : Reg) :
    EncodingCarriesRow.Statement (.lwax rt ra rb) :=
  ⟨rowX .lwax 0x7C0002AA, by simp [opcodeTable], rfl, encodeX_masked 31 rt ra rb 341⟩

theorem EncodingCarriesRow.lwaux (rt ra rb : Reg) :
    EncodingCarriesRow.Statement (.lwaux rt ra rb) :=
  ⟨rowX .lwaux 0x7C0002EA, by simp [opcodeTable], rfl, encodeX_masked 31 rt ra rb 373⟩

theorem EncodingCarriesRow.ld (rt ra : Reg) (ds : BitVec 14) :
    EncodingCarriesRow.Statement (.ld rt ra ds) :=
  ⟨rowDS .ld 0xE8000000, by simp [opcodeTable], rfl, encodeDS_masked 58 rt ra ds 0⟩

theorem EncodingCarriesRow.ldx (rt ra rb : Reg) :
    EncodingCarriesRow.Statement (.ldx rt ra rb) :=
  ⟨rowX .ldx 0x7C00002A, by simp [opcodeTable], rfl, encodeX_masked 31 rt ra rb 21⟩

theorem EncodingCarriesRow.ldu (rt ra : Reg) (ds : BitVec 14) :
    EncodingCarriesRow.Statement (.ldu rt ra ds) :=
  ⟨rowDS .ldu 0xE8000001, by simp [opcodeTable], rfl, encodeDS_masked 58 rt ra ds 1⟩

theorem EncodingCarriesRow.ldux (rt ra rb : Reg) :
    EncodingCarriesRow.Statement (.ldux rt ra rb) :=
  ⟨rowX .ldux 0x7C00006A, by simp [opcodeTable], rfl, encodeX_masked 31 rt ra rb 53⟩

theorem EncodingCarriesRow.lq (rtp ra : Reg) (dq : BitVec 12) :
    EncodingCarriesRow.Statement (.lq rtp ra dq) :=
  ⟨rowDQ .lq 0xE0000000, by simp [opcodeTable], rfl, encodeDQ_masked 56 rtp ra dq⟩

theorem EncodingCarriesRow.lhbrx (rt ra rb : Reg) :
    EncodingCarriesRow.Statement (.lhbrx rt ra rb) :=
  ⟨rowX .lhbrx 0x7C00062C, by simp [opcodeTable], rfl, encodeX_masked 31 rt ra rb 790⟩

theorem EncodingCarriesRow.lwbrx (rt ra rb : Reg) :
    EncodingCarriesRow.Statement (.lwbrx rt ra rb) :=
  ⟨rowX .lwbrx 0x7C00042C, by simp [opcodeTable], rfl, encodeX_masked 31 rt ra rb 534⟩

theorem EncodingCarriesRow.ldbrx (rt ra rb : Reg) :
    EncodingCarriesRow.Statement (.ldbrx rt ra rb) :=
  ⟨rowX .ldbrx 0x7C000428, by simp [opcodeTable], rfl, encodeX_masked 31 rt ra rb 532⟩

theorem EncodingCarriesRow.lmw (rt ra : Reg) (d : BitVec 16) :
    EncodingCarriesRow.Statement (.lmw rt ra d) :=
  ⟨rowD .lmw 0xB8000000, by simp [opcodeTable], rfl, encodeD_masked 46 rt ra d⟩

end Sys2Proof.Laws
end

