-- ==== Sys2Proof/Machine/Assembly.lean ====
section
/-! DEFINITION. The assembler syntax of the instructions (spec/30_encoding.md R63, R64), as the spec's
listings write it: registers as decimal numbers, the displacement as a signed decimal byte count
(D22, from the general knowledge GK10: PRESUMED, notes/assumptions/26.md). No step depends on it. -/

namespace Sys2Proof

/-- The mnemonic in lower case (R63). There is no alias and no extended mnemonic (R64). -/
def Mnemonic.name : Mnemonic → String
  | .lbz => "lbz"
  | .lbzx => "lbzx"
  | .lbzu => "lbzu"
  | .lbzux => "lbzux"
  | .lhz => "lhz"
  | .lhzx => "lhzx"
  | .lhzu => "lhzu"
  | .lhzux => "lhzux"
  | .lha => "lha"
  | .lhax => "lhax"
  | .lhau => "lhau"
  | .lhaux => "lhaux"
  | .lwz => "lwz"
  | .lwzx => "lwzx"
  | .lwzu => "lwzu"
  | .lwzux => "lwzux"
  | .lwa => "lwa"
  | .lwax => "lwax"
  | .lwaux => "lwaux"
  | .ld => "ld"
  | .ldx => "ldx"
  | .ldu => "ldu"
  | .ldux => "ldux"
  | .lq => "lq"
  | .lhbrx => "lhbrx"
  | .lwbrx => "lwbrx"
  | .ldbrx => "ldbrx"
  | .lmw => "lmw"

/-- `mnemonic RT,D(RA)`, the displacement in bytes (R63). -/
def syntaxDisp (i : Instr) (rt ra : Reg) (bytes : Int) : String :=
  i.mnemonic.name ++ " " ++ toString rt.val ++ "," ++ toString bytes ++ "(" ++ toString ra.val ++ ")"

/-- `mnemonic RT,RA,RB` (R63). -/
def syntaxIndex (i : Instr) (rt ra rb : Reg) : String :=
  i.mnemonic.name ++ " " ++ toString rt.val ++ "," ++ toString ra.val ++ "," ++ toString rb.val

/-- The assembler line of an instruction; the displacement written for a DS-form or DQ-form instruction
is the byte displacement `DS*4` or `DQ*16` (R63). -/
def Instr.assembly (i : Instr) : String :=
  match i with
  | .lbz rt ra d => syntaxDisp i rt ra d.toInt
  | .lbzx rt ra rb => syntaxIndex i rt ra rb
  | .lbzu rt ra d => syntaxDisp i rt ra d.toInt
  | .lbzux rt ra rb => syntaxIndex i rt ra rb
  | .lhz rt ra d => syntaxDisp i rt ra d.toInt
  | .lhzx rt ra rb => syntaxIndex i rt ra rb
  | .lhzu rt ra d => syntaxDisp i rt ra d.toInt
  | .lhzux rt ra rb => syntaxIndex i rt ra rb
  | .lha rt ra d => syntaxDisp i rt ra d.toInt
  | .lhax rt ra rb => syntaxIndex i rt ra rb
  | .lhau rt ra d => syntaxDisp i rt ra d.toInt
  | .lhaux rt ra rb => syntaxIndex i rt ra rb
  | .lwz rt ra d => syntaxDisp i rt ra d.toInt
  | .lwzx rt ra rb => syntaxIndex i rt ra rb
  | .lwzu rt ra d => syntaxDisp i rt ra d.toInt
  | .lwzux rt ra rb => syntaxIndex i rt ra rb
  | .lwa rt ra ds => syntaxDisp i rt ra (4 * ds.toInt)
  | .lwax rt ra rb => syntaxIndex i rt ra rb
  | .lwaux rt ra rb => syntaxIndex i rt ra rb
  | .ld rt ra ds => syntaxDisp i rt ra (4 * ds.toInt)
  | .ldx rt ra rb => syntaxIndex i rt ra rb
  | .ldu rt ra ds => syntaxDisp i rt ra (4 * ds.toInt)
  | .ldux rt ra rb => syntaxIndex i rt ra rb
  | .lq rtp ra dq => syntaxDisp i rtp ra (16 * dq.toInt)
  | .lhbrx rt ra rb => syntaxIndex i rt ra rb
  | .lwbrx rt ra rb => syntaxIndex i rt ra rb
  | .ldbrx rt ra rb => syntaxIndex i rt ra rb
  | .lmw rt ra d => syntaxDisp i rt ra d.toInt

end Sys2Proof
end

