-- ==== Sys2Proof/Tests/Slice0.lean ====
section
/-! SUPPORT. Tests. Expected values come from the spec: the decode vectors, the fixture F1 and the
vectors of spec/95_test_vectors.md (each test names its vector), the encoding examples of
spec/30_encoding.md. At the end, for every obligation that has hypotheses, a theorem `witness_…` that
shows concrete states and operands meeting them, each clause at a boundary of its range. -/

namespace Sys2Proof.Tests

open Sys2Proof.Machine

/-! ### Well-formedness: each check refuses an ill-formed term and lets its neighbour through -/

theorem test_update_form_with_ra_zero_is_ill_formed :
    (Instr.lbzu 3 0 9).wellFormed = false ∧ (Instr.lbzu 3 4 9).wellFormed = true := by decide

theorem test_update_form_with_ra_equal_rt_is_ill_formed :
    (Instr.ldux 4 4 6).wellFormed = false ∧ (Instr.ldux 4 6 4).wellFormed = true := by decide

theorem test_lq_with_rtp_equal_ra_is_ill_formed :
    (Instr.lq 4 4 0).wellFormed = false ∧ (Instr.lq 4 5 0).wellFormed = true := by decide

theorem test_lq_with_odd_rtp_is_ill_formed :
    (Instr.lq 9 4 0).wellFormed = false ∧ (Instr.lq 8 9 0).wellFormed = true := by decide

theorem test_lmw_with_ra_in_the_range_is_ill_formed :
    (Instr.lmw 4 4 0).wellFormed = false ∧ (Instr.lmw 0 0 0).wellFormed = false ∧
    (Instr.lmw 5 4 0).wellFormed = true := by decide

/-- RT = RA is valid in the forms without update (vectors B4, DW4). -/
theorem test_plain_form_with_rt_equal_ra_is_well_formed :
    (Instr.lbz 4 4 9).wellFormed = true ∧ (Instr.ld 4 4 0).wellFormed = true := by decide

/-! ### Decoding: a word of every instruction, its fields from the assembly text beside it -/

theorem test_decode_lbz : decodeTableWord 32 0x8864FFFF = some (.lbz 3 4 0xFFFF) := by decide
theorem test_decode_lbzx : decodeTableWord 32 0x7C6428AE = some (.lbzx 3 4 5) := by decide
theorem test_decode_lbzu : decodeTableWord 32 0x8C64FFFF = some (.lbzu 3 4 0xFFFF) := by decide
theorem test_decode_lbzux : decodeTableWord 32 0x7CA428EE = some (.lbzux 5 4 5) := by decide
theorem test_decode_lhz : decodeTableWord 32 0xA064FFFE = some (.lhz 3 4 0xFFFE) := by decide
theorem test_decode_lhzx : decodeTableWord 32 0x7C64322E = some (.lhzx 3 4 6) := by decide
theorem test_decode_lhzu : decodeTableWord 32 0xA4640008 = some (.lhzu 3 4 0x8) := by decide
theorem test_decode_lhzux : decodeTableWord 32 0x7C64326E = some (.lhzux 3 4 6) := by decide
theorem test_decode_lha : decodeTableWord 32 0xA864FFFE = some (.lha 3 4 0xFFFE) := by decide
theorem test_decode_lhax : decodeTableWord 32 0x7C642AAE = some (.lhax 3 4 5) := by decide
theorem test_decode_lhau : decodeTableWord 32 0xAC640008 = some (.lhau 3 4 0x8) := by decide
theorem test_decode_lhaux : decodeTableWord 32 0x7C6432EE = some (.lhaux 3 4 6) := by decide
theorem test_decode_lwz : decodeTableWord 32 0x80640008 = some (.lwz 3 4 0x8) := by decide
theorem test_decode_lwzx : decodeTableWord 32 0x7C64282E = some (.lwzx 3 4 5) := by decide
theorem test_decode_lwzu : decodeTableWord 32 0x84640008 = some (.lwzu 3 4 0x8) := by decide
theorem test_decode_lwzux : decodeTableWord 32 0x7C64306E = some (.lwzux 3 4 6) := by decide
theorem test_decode_lwa : decodeTableWord 32 0xE864FFFE = some (.lwa 3 4 0x3FFF) := by decide
theorem test_decode_lwax : decodeTableWord 32 0x7C643AAA = some (.lwax 3 4 7) := by decide
theorem test_decode_lwaux : decodeTableWord 32 0x7C6432EA = some (.lwaux 3 4 6) := by decide
theorem test_decode_ld : decodeTableWord 32 0xE864FFF8 = some (.ld 3 4 0x3FFE) := by decide
theorem test_decode_ldx : decodeTableWord 32 0x7C64302A = some (.ldx 3 4 6) := by decide
theorem test_decode_ldu : decodeTableWord 32 0xE864FFF9 = some (.ldu 3 4 0x3FFE) := by decide
theorem test_decode_ldux : decodeTableWord 32 0x7C64306A = some (.ldux 3 4 6) := by decide
theorem test_decode_lq : decodeTableWord 32 0xE104FFF0 = some (.lq 8 4 0xFFF) := by decide
theorem test_decode_lhbrx : decodeTableWord 32 0x7C642E2C = some (.lhbrx 3 4 5) := by decide
theorem test_decode_lwbrx : decodeTableWord 32 0x7C64342C = some (.lwbrx 3 4 6) := by decide
theorem test_decode_ldbrx : decodeTableWord 32 0x7C643428 = some (.ldbrx 3 4 6) := by decide
theorem test_decode_lmw : decodeTableWord 32 0xBB84FFF0 = some (.lmw 28 4 0xFFF0) := by decide

/-- The refused words of the decode vectors: a set reserved bit, opcode 58 with XO 3, opcodes and
extended opcodes that are not in scope. -/
theorem test_words_outside_the_table_are_refused :
    [0x7C6428AF, 0xE864000B, 0xE1040011, 0x00000000, 0x60000000, 0x7C6429AE, 0x90640000,
     0xE4640000].map decodeWord = List.replicate 8 (.error .notInScope) := by decide

/-- The same word in the two byte orders (P1: `lbzu 5,1(4)` is 8C A4 00 01 or 01 00 A4 8C). -/
theorem test_decode_bytes_in_both_modes :
    decodeBytes false [0x8C, 0xA4, 0x00, 0x01] = .ok (.lbzu 5 4 1) ∧
    decodeBytes true [0x01, 0x00, 0xA4, 0x8C] = .ok (.lbzu 5 4 1) := by decide

theorem test_decode_bytes_of_another_length :
    decodeBytes false [0x8C, 0xA4, 0x00] = .error .notOneWord := by decide

/-- The assembly column of the encoding examples, with the fields column beside it. -/
theorem test_assembly_lines :
    (Instr.lbz 3 4 0xFFFF).assembly = "lbz 3,-1(4)" ∧ (Instr.lwzx 3 4 5).assembly = "lwzx 3,4,5" ∧
    (Instr.ld 3 4 0x3FFE).assembly = "ld 3,-8(4)" ∧ (Instr.lq 8 4 1).assembly = "lq 8,16(4)" ∧
    (Instr.lmw 29 1 0xFFF4).assembly = "lmw 29,-12(1)" := by decide

/-! ### One step of every instruction, from the fixture -/

/-- The storage rows of fixture F1. -/
def f1mem : Memory :=
  Memory.writeBytes (Memory.writeBytes (Memory.writeBytes (Memory.writeBytes []
    0x1000 [0x00, 0x11, 0x22, 0x33, 0x44, 0x55, 0x66, 0x77,
            0x88, 0x99, 0xAA, 0xBB, 0xCC, 0xDD, 0xEE, 0xFF,
            0xF0, 0xE1, 0xD2, 0xC3, 0xB4, 0xA5, 0x96, 0x87,
            0x78, 0x69, 0x5A, 0x4B, 0x3C, 0x2D, 0x1E, 0x0F])
    0x0FF0 [0x10, 0x20, 0x30, 0x40, 0x50, 0x60, 0x70, 0x80,
            0x90, 0xA0, 0xB0, 0xC0, 0xD0, 0xE0, 0xF0, 0xFF])
    0x0000 [0xA0, 0xA1, 0xA2, 0xA3, 0xA4, 0xA5, 0xA6, 0xA7,
            0xA8, 0xA9, 0xAA, 0xAB, 0xAC, 0xAD, 0xAE, 0xAF])
    0xFFFFFFFFFFFFFFFF [0x5A]

/-- Fixture F1 in the given mode. -/
def f1 (le : Bool) : State :=
  ((((({ State.reset with pc := 0x100, le := le, mem := f1mem }.setGpr 0 0x1010).setGpr 3
    0xDEADBEEFDEADBEEF).setGpr 4 0x1000).setGpr 5 9).setGpr 6 8)

/-- The state with the accessible addresses of vectors S1 to S6. -/
def withIslands (s : State) : State :=
  { s with params := { s.params with
      accessible := .onlyIn [⟨0, 0xF⟩, ⟨0xFF0, 0x101F⟩, ⟨0x100, 0x103⟩] } }

/-- The state with the alignment parameter of vectors S7 and S8. -/
def withStrictAlignment (s : State) : State :=
  { s with params := { s.params with alignFault := .misaligned } }

/-- The registers after a step over the word at `pc`, when it completed: no fault, `pc` advanced. -/
def gprsAfter (s : State) (w : Nat) (rs : List Reg) : Option (List Word) :=
  match step (s.withFetchWord 32 w) with
  | .next t => if t.fault = none ∧ t.pc = s.pc + 4 then some (rs.map t.gpr) else none
  | _ => none

/-- The fault a step over the word raises, when nothing but the fault status changed. -/
def faultAfter (s : State) (w : Nat) : Option Fault :=
  match step (s.withFetchWord 32 w) with
  | .next t => if t = { s.withFetchWord 32 w with fault := t.fault } then t.fault else none
  | _ => none

/-- The refusal of a step over the word. -/
def refusalAfter (s : State) (w : Nat) : Option Refusal :=
  match step (s.withFetchWord 32 w) with
  | .refused r => some r
  | _ => none

/-- B3: `lbz 3,-1(4)`. -/
theorem test_lbz_big :
    gprsAfter (f1 false) 0x8864FFFF [3] =
      some [0xFF] := by decide

/-- B2: `lbz 3,9(0)`. -/
theorem test_lbz_little :
    gprsAfter (f1 true) 0x88600009 [3] =
      some [0xA9] := by decide

/-- B8: `lbzx 3,4,5`. -/
theorem test_lbzx_big :
    gprsAfter (f1 false) 0x7C6428AE [3] =
      some [0x99] := by decide

/-- B10: `lbzx 3,0,0`. -/
theorem test_lbzx_little :
    gprsAfter (f1 true) 0x7C6000AE [3] =
      some [0xF0] := by decide

/-- B12: `lbzu 3,9(4)`. -/
theorem test_lbzu_big :
    gprsAfter (f1 false) 0x8C640009 [3, 4] =
      some [0x99, 0x1009] := by decide

/-- B13: `lbzu 3,-1(4)`. -/
theorem test_lbzu_little :
    gprsAfter (f1 true) 0x8C64FFFF [3, 4] =
      some [0xFF, 0xFFF] := by decide

/-- B18: `lbzux 5,4,5`. -/
theorem test_lbzux_big :
    gprsAfter (f1 false) 0x7CA428EE [4, 5] =
      some [0x1009, 0x99] := by decide

/-- B19: `lbzux 3,4,4`. -/
theorem test_lbzux_little :
    gprsAfter ((f1 true).setGpr 4 0x806) 0x7C6420EE [3, 4] =
      some [0xCC, 0x100C] := by decide

/-- H1: `lhz 3,8(4)`. -/
theorem test_lhz_big :
    gprsAfter (f1 false) 0xA0640008 [3] =
      some [0x8899] := by decide

/-- H3: `lhz 3,-2(4)`. -/
theorem test_lhz_little :
    gprsAfter (f1 true) 0xA064FFFE [3] =
      some [0xFFF0] := by decide

/-- H4: `lhzx 3,4,6`. -/
theorem test_lhzx_big :
    gprsAfter (f1 false) 0x7C64322E [3] =
      some [0x8899] := by decide

/-- H5: `lhzx 3,0,6`. -/
theorem test_lhzx_little :
    gprsAfter (f1 true) 0x7C60322E [3] =
      some [0xA9A8] := by decide

/-- H6: `lhzu 3,8(4)`. -/
theorem test_lhzu_big :
    gprsAfter (f1 false) 0xA4640008 [3, 4] =
      some [0x8899, 0x1008] := by decide

/-- H6: `lhzu 3,8(4)`. -/
theorem test_lhzu_little :
    gprsAfter (f1 true) 0xA4640008 [3, 4] =
      some [0x9988, 0x1008] := by decide

/-- H9: `lhzux 3,4,6`. -/
theorem test_lhzux_big :
    gprsAfter (f1 false) 0x7C64326E [3, 4] =
      some [0x8899, 0x1008] := by decide

/-- H9: `lhzux 3,4,6`. -/
theorem test_lhzux_little :
    gprsAfter (f1 true) 0x7C64326E [3, 4] =
      some [0x9988, 0x1008] := by decide

/-- H13: `lha 3,7(4)`. -/
theorem test_lha_big :
    gprsAfter (f1 false) 0xA8640007 [3] =
      some [0x7788] := by decide

/-- H13: `lha 3,7(4)`. -/
theorem test_lha_little :
    gprsAfter (f1 true) 0xA8640007 [3] =
      some [0xFFFFFFFFFFFF8877] := by decide

/-- H15: `lhax 3,4,6`. -/
theorem test_lhax_big :
    gprsAfter (f1 false) 0x7C6432AE [3] =
      some [0xFFFFFFFFFFFF8899] := by decide

/-- H16: `lhax 3,4,5`. -/
theorem test_lhax_little :
    gprsAfter (f1 true) 0x7C642AAE [3] =
      some [0xFFFFFFFFFFFFAA99] := by decide

/-- H17: `lhau 3,8(4)`. -/
theorem test_lhau_big :
    gprsAfter (f1 false) 0xAC640008 [3, 4] =
      some [0xFFFFFFFFFFFF8899, 0x1008] := by decide

/-- H18: `lhau 3,6(4)`. -/
theorem test_lhau_little :
    gprsAfter (f1 true) 0xAC640006 [3, 4] =
      some [0x7766, 0x1006] := by decide

/-- H20: `lhaux 3,4,6`. -/
theorem test_lhaux_big :
    gprsAfter (f1 false) 0x7C6432EE [3, 4] =
      some [0xFFFFFFFFFFFF8899, 0x1008] := by decide

/-- H20: `lhaux 3,4,6`. -/
theorem test_lhaux_little :
    gprsAfter (f1 true) 0x7C6432EE [3, 4] =
      some [0xFFFFFFFFFFFF9988, 0x1008] := by decide

/-- W1: `lwz 3,8(4)`. -/
theorem test_lwz_big :
    gprsAfter (f1 false) 0x80640008 [3] =
      some [0x8899AABB] := by decide

/-- W3: `lwz 3,3(4)`. -/
theorem test_lwz_little :
    gprsAfter (f1 true) 0x80640003 [3] =
      some [0x66554433] := by decide

/-- W5: `lwzx 3,4,6`. -/
theorem test_lwzx_big :
    gprsAfter (f1 false) 0x7C64302E [3] =
      some [0x8899AABB] := by decide

/-- W6: `lwzx 3,4,5`. -/
theorem test_lwzx_little :
    gprsAfter (f1 true) 0x7C64282E [3] =
      some [0xCCBBAA99] := by decide

/-- W7: `lwzu 3,8(4)`. -/
theorem test_lwzu_big :
    gprsAfter (f1 false) 0x84640008 [3, 4] =
      some [0x8899AABB, 0x1008] := by decide

/-- W7: `lwzu 3,8(4)`. -/
theorem test_lwzu_little :
    gprsAfter (f1 true) 0x84640008 [3, 4] =
      some [0xBBAA9988, 0x1008] := by decide

/-- W9: `lwzux 3,4,6`. -/
theorem test_lwzux_big :
    gprsAfter (f1 false) 0x7C64306E [3, 4] =
      some [0x8899AABB, 0x1008] := by decide

/-- W9: `lwzux 3,4,6`. -/
theorem test_lwzux_little :
    gprsAfter (f1 true) 0x7C64306E [3, 4] =
      some [0xBBAA9988, 0x1008] := by decide

/-- W11: `lwa 3,8(4)`. -/
theorem test_lwa_big :
    gprsAfter (f1 false) 0xE864000A [3] =
      some [0xFFFFFFFF8899AABB] := by decide

/-- W13: `lwa 3,-4(4)`. -/
theorem test_lwa_little :
    gprsAfter (f1 true) 0xE864FFFE [3] =
      some [0xFFFFFFFFFFF0E0D0] := by decide

/-- W15: `lwax 3,4,7`. -/
theorem test_lwax_big :
    gprsAfter ((f1 false).setGpr 7 0x7) 0x7C643AAA [3] =
      some [0x778899AA] := by decide

/-- W15: `lwax 3,4,7`. -/
theorem test_lwax_little :
    gprsAfter ((f1 true).setGpr 7 0x7) 0x7C643AAA [3] =
      some [0xFFFFFFFFAA998877] := by decide

/-- W16: `lwaux 3,4,6`. -/
theorem test_lwaux_big :
    gprsAfter (f1 false) 0x7C6432EA [3, 4] =
      some [0xFFFFFFFF8899AABB, 0x1008] := by decide

/-- W16: `lwaux 3,4,6`. -/
theorem test_lwaux_little :
    gprsAfter (f1 true) 0x7C6432EA [3, 4] =
      some [0xFFFFFFFFBBAA9988, 0x1008] := by decide

/-- DW2: `ld 3,-8(4)`. -/
theorem test_ld_big :
    gprsAfter (f1 false) 0xE864FFF8 [3] =
      some [0x90A0B0C0D0E0F0FF] := by decide

/-- DW3: `ld 3,4(4)`. -/
theorem test_ld_little :
    gprsAfter (f1 true) 0xE8640004 [3] =
      some [0xBBAA998877665544] := by decide

/-- DW7: `ldx 3,0,0`. -/
theorem test_ldx_big :
    gprsAfter (f1 false) 0x7C60002A [3] =
      some [0xF0E1D2C3B4A59687] := by decide

/-- DW6: `ldx 3,4,6`. -/
theorem test_ldx_little :
    gprsAfter (f1 true) 0x7C64302A [3] =
      some [0xFFEEDDCCBBAA9988] := by decide

/-- DW9: `ldu 3,-8(4)`. -/
theorem test_ldu_big :
    gprsAfter (f1 false) 0xE864FFF9 [3, 4] =
      some [0x90A0B0C0D0E0F0FF, 0xFF8] := by decide

/-- DW9: `ldu 3,-8(4)`. -/
theorem test_ldu_little :
    gprsAfter (f1 true) 0xE864FFF9 [3, 4] =
      some [0xFFF0E0D0C0B0A090, 0xFF8] := by decide

/-- DW12: `ldux 3,4,6`. -/
theorem test_ldux_big :
    gprsAfter (f1 false) 0x7C64306A [3, 4] =
      some [0x8899AABBCCDDEEFF, 0x1008] := by decide

/-- DW13: `ldux 3,4,4`. -/
theorem test_ldux_little :
    gprsAfter ((f1 true).setGpr 4 0x804) 0x7C64206A [3, 4] =
      some [0xFFEEDDCCBBAA9988, 0x1008] := by decide

/-- Q6: `lq 8,0(9)`. -/
theorem test_lq_big :
    gprsAfter (((f1 false).setGpr 8 0x1).setGpr 9 0x1000) 0xE1090000 [8, 9] =
      some [0x11223344556677, 0x8899AABBCCDDEEFF] := by decide

/-- Q2: `lq 8,16(4)`. -/
theorem test_lq_little :
    gprsAfter (((f1 true).setGpr 8 0x1).setGpr 9 0x2) 0xE1040010 [8, 9] =
      some [0xF1E2D3C4B5A6978, 0x8796A5B4C3D2E1F0] := by decide

/-- BR1: `lhbrx 3,4,6`. -/
theorem test_lhbrx_big :
    gprsAfter (f1 false) 0x7C64362C [3] =
      some [0x9988] := by decide

/-- BR2: `lhbrx 3,4,5`. -/
theorem test_lhbrx_little :
    gprsAfter (f1 true) 0x7C642E2C [3] =
      some [0x99AA] := by decide

/-- BR4: `lwbrx 3,0,0`. -/
theorem test_lwbrx_big :
    gprsAfter (f1 false) 0x7C60042C [3] =
      some [0xC3D2E1F0] := by decide

/-- BR3: `lwbrx 3,4,6`. -/
theorem test_lwbrx_little :
    gprsAfter (f1 true) 0x7C64342C [3] =
      some [0x8899AABB] := by decide

/-- BR6: `ldbrx 3,4,6`. -/
theorem test_ldbrx_big :
    gprsAfter (f1 false) 0x7C643428 [3] =
      some [0xFFEEDDCCBBAA9988] := by decide

/-- BR7: `ldbrx 3,0,4`. -/
theorem test_ldbrx_little :
    gprsAfter (f1 true) 0x7C602428 [3] =
      some [0x11223344556677] := by decide

/-- M5: `lmw 28,-16(4)`. -/
theorem test_lmw_big :
    gprsAfter (((((f1 false).setGpr 28 0x0).setGpr 29 0x1).setGpr 30 0x2).setGpr 31 0x3) 0xBB84FFF0 [28, 29, 30, 31] =
      some [0x10203040, 0x50607080, 0x90A0B0C0, 0xD0E0F0FF] := by decide

/-- M1: `lmw 29,16(4)` in Little-Endian mode. -/
theorem test_lmw_little : faultAfter (f1 true) 0xBBA40010 = some (.alignment 0x100 none) := by
  decide

/-! ### Faults and refusals -/

/-- M8: `lmw 0,0(0)`: the invalid form comes before the mode. -/
theorem test_invalid_lmw_before_the_mode :
    faultAfter (f1 true) 0xB8000000 = some (.invalidForm 0x100) := by decide

/-- Q10: `lq 5,0(5)`: RTp = RA comes before RTp odd. -/
theorem test_lq_rtp_equal_ra_and_odd :
    faultAfter (f1 false) 0xE0A50000 = some (.illegalInstruction 0x100) := by decide

/-- Q11: `lq 9,0(4)`. -/
theorem test_lq_odd : faultAfter (f1 true) 0xE1240000 = some (.invalidForm 0x100) := by decide

/-- B15: `lbzu 3,9(0)`. -/
theorem test_update_form_ra_zero :
    faultAfter (f1 false) 0x8C600009 = some (.invalidForm 0x100) := by decide

/-- DW10: `ldu 4,8(4)`. -/
theorem test_update_form_ra_equal_rt :
    faultAfter (f1 true) 0xE8840009 = some (.invalidForm 0x100) := by decide

/-- S1: `ld 3,24(4)`: the last 8 accessible bytes. -/
theorem test_load_of_the_last_accessible_bytes :
    gprsAfter (withIslands (f1 false)) 0xE8640018 [3] = some [0x78695A4B3C2D1E0F] := by decide

/-- S2: `ld 3,28(4)`. -/
theorem test_load_past_the_accessible_bytes :
    faultAfter (withIslands (f1 false)) 0xE864001C = some (.storageFault 0x100 0x101C) := by decide

/-- S3: `lwzu 3,32(4)`: the base is not updated. -/
theorem test_faulting_update_form :
    faultAfter (withIslands (f1 true)) 0x84640020 = some (.storageFault 0x100 0x1020) := by decide

/-- S5: `lmw 29,24(4)`: the third word fails, no register is written. -/
theorem test_lmw_is_all_or_nothing :
    faultAfter (withIslands (f1 false)) 0xBBA40018 = some (.storageFault 0x100 0x1020) := by decide

/-- S7: `lwz 3,3(4)` under the alignment parameter. -/
theorem test_alignment_parameter :
    faultAfter (withStrictAlignment (f1 false)) 0x80640003 = some (.alignment 0x100 (some 0x1003)) := by
  decide

/-- S8: `lwz 3,4(4)`, aligned. -/
theorem test_alignment_parameter_aligned :
    gprsAfter (withStrictAlignment (f1 true)) 0x80640004 [3] = some [0x77665544] := by decide

/-- S9: `lhz 3,0(4)` at 2^64 - 1. -/
theorem test_operand_across_the_top :
    refusalAfter ((f1 false).setGpr 4 0xFFFFFFFFFFFFFFFF) 0xA0640000 = some .addressWrap := by
  decide

/-- S10: `ld 3,-8(0)`: the last doubleword of storage. -/
theorem test_last_doubleword :
    gprsAfter { f1 true with mem := Memory.writeBytes f1mem 0xFFFFFFFFFFFFFFF8 [1, 2, 3, 4, 5, 6, 7] }
      0xE860FFF8 [3] = some [0x5A07060504030201] := by decide

/-- R65: a word that matches no row. -/
theorem test_word_outside_the_table : refusalAfter (f1 true) 0x7C6428AF = some .notInScope := by
  decide

/-- R208: `pc` not a multiple of 4, and `pc` at the last word of storage. -/
theorem test_bad_pc :
    refusalAfter { f1 false with pc := 0x102 } 0x88640009 = some .pcMisaligned ∧
    refusalAfter { f1 false with pc := 0xFFFFFFFFFFFFFFFC } 0x88640009 = some .pcWrap := by decide

/-- R204: fetch from inaccessible bytes. -/
theorem test_fetch_of_inaccessible_bytes :
    faultAfter (withIslands { f1 false with pc := 0x200 }) 0x88640009 =
      some (.storageFault 0x200 0x200) := by decide

/-- R200: a state that holds a fault has no further step. -/
theorem test_faulted_state_has_no_step :
    (match step { f1 false with fault := some (.invalidForm 0x100) } with
      | .fault f => some f
      | _ => none) = some (.invalidForm 0x100) := by decide

theorem test_reset_memory_is_canonical : State.reset.mem.wf := by decide

theorem test_writing_the_unlisted_value_removes_the_entry :
    Memory.write (Memory.write [] 5 7) 5 Config.unlistedByte = [] := by decide

/-! ### Witnesses: the hypotheses of the obligations can be met -/

/-- EncodeOfDecodeIsIdentity: words with every operand field at an end of its range decode. -/
theorem witness_EncodeOfDecode :
    decodeWord 0xE3E4FFFF = .error .notInScope ∧ decodeWord 0xE3E4FFF0 = .ok (.lq 31 4 0xFFF) ∧
    decodeWord 0x80000000 = .ok (.lwz 0 0 0) ∧ decodeWord 0x7FFFFE2C = .ok (.lhbrx 31 31 31) := by decide

/-- DecodeSelectsTheMatchingRow: the first and the last row, and both sides on a word. -/
theorem witness_DecodeSelectsTheMatchingRow :
    rowD .lwz 0x80000000 ∈ opcodeTable ∧ rowX .lhbrx 0x7C00062C ∈ opcodeTable ∧
    (0x83FFFFFF : InstrWord) &&& (rowD .lwz 0x80000000).mask = (rowD .lwz 0x80000000).pattern ∧
    decodeWord 0x83FFFFFF = .ok (.lwz 31 31 0xFFFF) := by decide

/-- ReservedBitsAreNotInScope: each clause. -/
theorem witness_ReservedBits :
    ((0x7C6428AF : InstrWord).extractLsb' 26 6 = 31 ∧ (0x7C6428AF : InstrWord).getLsbD 0 = true) ∧
    ((0xE1040011 : InstrWord).extractLsb' 26 6 = 56 ∧ (0xE1040011 : InstrWord).extractLsb' 0 4 ≠ 0) ∧
    ((0xE104001F : InstrWord).extractLsb' 26 6 = 56 ∧ (0xE104001F : InstrWord).extractLsb' 0 4 ≠ 0) ∧
    ((0xE864000B : InstrWord).extractLsb' 26 6 = 58 ∧ (0xE864000B : InstrWord).extractLsb' 0 2 = 3) := by decide

/-- ByteLoads: the highest operand of storage (RA = 0) and the last accessible one. -/
theorem witness_ByteLoads :
    Readable .lbz (eaD 0 0xFFFF (f1 false)) 1 (f1 false) ∧
    Readable .lbz (eaD 4 0x1F (withIslands (f1 true))) 1 (withIslands (f1 true)) ∧
    Readable .lbzx (eaX 0 4 ((f1 true).setGpr 4 (-1))) 1 ((f1 true).setGpr 4 (-1)) ∧
    Readable .lbzx (eaX 4 5 ((withIslands (f1 false)).setGpr 5 31)) 1
      ((withIslands (f1 false)).setGpr 5 31) := by decide

/-- ByteUpdateLoads: a valid form, the highest operand of storage and the last accessible one. -/
theorem witness_ByteUpdateLoads :
    (4 : Reg) ≠ 0 ∧
    (4 : Reg) ≠ 3 ∧
    Readable .lbzu (eaUpdateD 4 0x1F (withIslands (f1 true))) 1 (withIslands (f1 true)) ∧
    Readable .lbzu (eaUpdateD 4 0 ((f1 false).setGpr 4 (-1))) 1 ((f1 false).setGpr 4 (-1)) ∧
    Readable .lbzux (eaUpdateX 4 1 ((f1 true).setGpr 4 (-1))) 1 ((f1 true).setGpr 4 (-1)) ∧
    Readable .lbzux (eaUpdateX 4 5 ((withIslands (f1 false)).setGpr 5 31)) 1
      ((withIslands (f1 false)).setGpr 5 31) := by decide

/-- HalfwordLoads: the highest operand of storage (RA = 0) and the last accessible one. -/
theorem witness_HalfwordLoads :
    Readable .lhz (eaD 0 0xFFFE (f1 false)) 2 (f1 false) ∧
    Readable .lhz (eaD 4 0x1E (withIslands (f1 true))) 2 (withIslands (f1 true)) ∧
    Readable .lhzx (eaX 0 4 ((f1 true).setGpr 4 (-2))) 2 ((f1 true).setGpr 4 (-2)) ∧
    Readable .lhzx (eaX 4 5 ((withIslands (f1 false)).setGpr 5 30)) 2
      ((withIslands (f1 false)).setGpr 5 30) := by decide

/-- HalfwordUpdateLoads: a valid form, the highest operand of storage and the last accessible one. -/
theorem witness_HalfwordUpdateLoads :
    (4 : Reg) ≠ 0 ∧
    (4 : Reg) ≠ 3 ∧
    Readable .lhzu (eaUpdateD 4 0x1E (withIslands (f1 true))) 2 (withIslands (f1 true)) ∧
    Readable .lhzu (eaUpdateD 4 0 ((f1 false).setGpr 4 (-2))) 2 ((f1 false).setGpr 4 (-2)) ∧
    Readable .lhzux (eaUpdateX 4 1 ((f1 true).setGpr 4 (-2))) 2 ((f1 true).setGpr 4 (-2)) ∧
    Readable .lhzux (eaUpdateX 4 5 ((withIslands (f1 false)).setGpr 5 30)) 2
      ((withIslands (f1 false)).setGpr 5 30) := by decide

/-- HalfwordAlgebraicLoads: the highest operand of storage (RA = 0) and the last accessible one. -/
theorem witness_HalfwordAlgebraicLoads :
    Readable .lha (eaD 0 0xFFFE (f1 false)) 2 (f1 false) ∧
    Readable .lha (eaD 4 0x1E (withIslands (f1 true))) 2 (withIslands (f1 true)) ∧
    Readable .lhax (eaX 0 4 ((f1 true).setGpr 4 (-2))) 2 ((f1 true).setGpr 4 (-2)) ∧
    Readable .lhax (eaX 4 5 ((withIslands (f1 false)).setGpr 5 30)) 2
      ((withIslands (f1 false)).setGpr 5 30) := by decide

/-- HalfwordAlgebraicUpdateLoads: a valid form, the highest operand of storage and the last accessible one. -/
theorem witness_HalfwordAlgebraicUpdateLoads :
    (4 : Reg) ≠ 0 ∧
    (4 : Reg) ≠ 3 ∧
    Readable .lhau (eaUpdateD 4 0x1E (withIslands (f1 true))) 2 (withIslands (f1 true)) ∧
    Readable .lhau (eaUpdateD 4 0 ((f1 false).setGpr 4 (-2))) 2 ((f1 false).setGpr 4 (-2)) ∧
    Readable .lhaux (eaUpdateX 4 1 ((f1 true).setGpr 4 (-2))) 2 ((f1 true).setGpr 4 (-2)) ∧
    Readable .lhaux (eaUpdateX 4 5 ((withIslands (f1 false)).setGpr 5 30)) 2
      ((withIslands (f1 false)).setGpr 5 30) := by decide

/-- WordLoads: the highest operand of storage (RA = 0) and the last accessible one. -/
theorem witness_WordLoads :
    Readable .lwz (eaD 0 0xFFFC (f1 false)) 4 (f1 false) ∧
    Readable .lwz (eaD 4 0x1C (withIslands (f1 true))) 4 (withIslands (f1 true)) ∧
    Readable .lwzx (eaX 0 4 ((f1 true).setGpr 4 (-4))) 4 ((f1 true).setGpr 4 (-4)) ∧
    Readable .lwzx (eaX 4 5 ((withIslands (f1 false)).setGpr 5 28)) 4
      ((withIslands (f1 false)).setGpr 5 28) := by decide

/-- WordUpdateLoads: a valid form, the highest operand of storage and the last accessible one. -/
theorem witness_WordUpdateLoads :
    (4 : Reg) ≠ 0 ∧
    (4 : Reg) ≠ 3 ∧
    Readable .lwzu (eaUpdateD 4 0x1C (withIslands (f1 true))) 4 (withIslands (f1 true)) ∧
    Readable .lwzu (eaUpdateD 4 0 ((f1 false).setGpr 4 (-4))) 4 ((f1 false).setGpr 4 (-4)) ∧
    Readable .lwzux (eaUpdateX 4 1 ((f1 true).setGpr 4 (-4))) 4 ((f1 true).setGpr 4 (-4)) ∧
    Readable .lwzux (eaUpdateX 4 5 ((withIslands (f1 false)).setGpr 5 28)) 4
      ((withIslands (f1 false)).setGpr 5 28) := by decide

/-- WordAlgebraicLoads: the highest operand of storage (RA = 0) and the last accessible one. -/
theorem witness_WordAlgebraicLoads :
    Readable .lwa (eaDS 0 0x3FFF (f1 false)) 4 (f1 false) ∧
    Readable .lwa (eaDS 4 0x7 (withIslands (f1 true))) 4 (withIslands (f1 true)) ∧
    Readable .lwax (eaX 0 4 ((f1 true).setGpr 4 (-4))) 4 ((f1 true).setGpr 4 (-4)) ∧
    Readable .lwax (eaX 4 5 ((withIslands (f1 false)).setGpr 5 28)) 4
      ((withIslands (f1 false)).setGpr 5 28) := by decide

/-- WordAlgebraicUpdateIndexed: a valid form, the highest operand of storage and the last accessible one. -/
theorem witness_WordAlgebraicUpdateIndexed :
    (4 : Reg) ≠ 0 ∧
    (4 : Reg) ≠ 3 ∧
    Readable .lwaux (eaUpdateX 4 1 ((f1 true).setGpr 4 (-4))) 4 ((f1 true).setGpr 4 (-4)) ∧
    Readable .lwaux (eaUpdateX 4 5 ((withIslands (f1 false)).setGpr 5 28)) 4
      ((withIslands (f1 false)).setGpr 5 28) := by decide

/-- DoublewordLoads: the highest operand of storage (RA = 0) and the last accessible one. -/
theorem witness_DoublewordLoads :
    Readable .ld (eaDS 0 0x3FFE (f1 false)) 8 (f1 false) ∧
    Readable .ld (eaDS 4 0x6 (withIslands (f1 true))) 8 (withIslands (f1 true)) ∧
    Readable .ldx (eaX 0 4 ((f1 true).setGpr 4 (-8))) 8 ((f1 true).setGpr 4 (-8)) ∧
    Readable .ldx (eaX 4 5 ((withIslands (f1 false)).setGpr 5 24)) 8
      ((withIslands (f1 false)).setGpr 5 24) := by decide

/-- DoublewordUpdateLoads: a valid form, the highest operand of storage and the last accessible one. -/
theorem witness_DoublewordUpdateLoads :
    (4 : Reg) ≠ 0 ∧
    (4 : Reg) ≠ 3 ∧
    Readable .ldu (eaUpdateDS 4 0x6 (withIslands (f1 true))) 8 (withIslands (f1 true)) ∧
    Readable .ldu (eaUpdateDS 4 0 ((f1 false).setGpr 4 (-8))) 8 ((f1 false).setGpr 4 (-8)) ∧
    Readable .ldux (eaUpdateX 4 1 ((f1 true).setGpr 4 (-8))) 8 ((f1 true).setGpr 4 (-8)) ∧
    Readable .ldux (eaUpdateX 4 5 ((withIslands (f1 false)).setGpr 5 24)) 8
      ((withIslands (f1 false)).setGpr 5 24) := by decide

/-- QuadwordLoadFillsThePair: the highest quadword of storage with RA = RTp + 1, the last accessible one with
the highest pair, and both modes. -/
theorem witness_QuadwordLoad :
    ((8 : Reg) ≠ 9 ∧ (8 : Reg).val % 2 = 0 ∧
      Readable .lq (eaDQ 9 0 ((f1 false).setGpr 9 (-16))) 16 ((f1 false).setGpr 9 (-16))) ∧
    ((30 : Reg) ≠ 4 ∧ (30 : Reg).val % 2 = 0 ∧
      Readable .lq (eaDQ 4 1 (withIslands (f1 true))) 16 (withIslands (f1 true))) ∧
    (f1 false).le = false ∧ (f1 true).le = true := by decide

/-- ByteReverseLoadsReadTheOppositeOrder: the highest operand of storage and the last accessible one. -/
theorem witness_ByteReverseLoads :
    Readable .lhbrx (eaX 0 4 ((f1 true).setGpr 4 (-2))) 2 ((f1 true).setGpr 4 (-2)) ∧
    Readable .lhbrx (eaX 4 5 ((withIslands (f1 false)).setGpr 5 30)) 2
      ((withIslands (f1 false)).setGpr 5 30) ∧
    Readable .lwbrx (eaX 0 4 ((f1 true).setGpr 4 (-4))) 4 ((f1 true).setGpr 4 (-4)) ∧
    Readable .lwbrx (eaX 4 5 ((withIslands (f1 false)).setGpr 5 28)) 4
      ((withIslands (f1 false)).setGpr 5 28) ∧
    Readable .ldbrx (eaX 0 4 ((f1 true).setGpr 4 (-8))) 8 ((f1 true).setGpr 4 (-8)) ∧
    Readable .ldbrx (eaX 4 5 ((withIslands (f1 false)).setGpr 5 24)) 8
      ((withIslands (f1 false)).setGpr 5 24) := by decide

/-- LoadMultipleFillsRTTo31: three words up to the last accessible byte, and 31 words that step over the
top of storage. -/
theorem witness_LoadMultiple :
    ((4 : Reg) < 29 ∧ (withIslands (f1 false)).le = false ∧
      ∀ k < 32 - (29 : Reg).val, Readable .lmw
        (eaD 4 0x14 (withIslands (f1 false)) + BitVec.ofNat 64 (4 * k)) 4 (withIslands (f1 false))) ∧
    ((0 : Reg) < 1 ∧ ∀ k < 32 - (1 : Reg).val, Readable .lmw
        (eaD 0 0xFFF0 (f1 false) + BitVec.ofNat 64 (4 * k)) 4 (f1 false)) := by decide

/-- ByteReverseIsThePlainLoadOfTheOtherMode: each width. -/
theorem witness_ByteReverseIsThePlainLoad :
    (Readable .lhbrx (eaX 4 6 (f1 false)) 2 (f1 false) ∧ Readable .lhzx (eaX 4 6 (f1 false)) 2 (f1 false)) ∧
    (Readable .lwbrx (eaX 4 6 (f1 true)) 4 (f1 true) ∧ Readable .lwzx (eaX 4 6 (f1 true)) 4 (f1 true)) ∧
    (Readable .ldbrx (eaX 0 4 ((f1 true).setGpr 4 (-8))) 8 ((f1 true).setGpr 4 (-8)) ∧
      Readable .ldx (eaX 0 4 ((f1 true).setGpr 4 (-8))) 8 ((f1 true).setGpr 4 (-8))) := by decide

/-- NarrowLoadsSeeTheirPartOfADoubleword: the last accessible doubleword, both modes. -/
theorem witness_NarrowLoads :
    let s := (withIslands (f1 false)).setGpr 5 0x18 |>.setGpr 7 0x1C
    s.gpr 7 = s.gpr 5 + 4 ∧ Readable .ldx (eaX 4 5 s) 8 s ∧ Readable .lbzx (eaX 4 5 s) 1 s ∧
      Readable .lwzx (eaX 4 5 s + 4) 4 s ∧ s.le = false ∧ { s with le := true }.le = true := by decide

/-- The answer is a next state without a fault. -/
def completes (o : Result) : Bool :=
  match o with
  | .next t => t.fault == none
  | _ => false

theorem completes_next {o : Result} (h : completes o = true) :
    ∃ t, o = .next t ∧ t.fault = none := by
  cases o with
  | next t => exact ⟨t, rfl, by simpa [completes] using h⟩
  | fault f => simp [completes] at h
  | refused r => simp [completes] at h

/-- ExecCompletesOrRaisesAndNothingElse: an instruction that completes, one that raises, and one run in
a state that holds a fault already. -/
theorem witness_ExecCompletesOrRaises :
    (∃ t, exec (.lmw 29 4 0x10) (f1 false) = .next t) ∧
    (exec (.lmw 29 4 0x10) (f1 true) =
      .next { f1 true with fault := some (.alignment 0x100 none) }) ∧
    (∃ t, exec (.lbzux 3 4 5) { f1 true with fault := some (.invalidForm 0) } = .next t) :=
  ⟨(completes_next (by decide)).imp fun _ h => h.1, rfl, ⟨_, rfl⟩⟩

/-- InvalidFormsRaiseTheirFault: each clause, RA = 0, RA = RT, the lowest and the highest odd RTp, and
RA = RT = 31. -/
theorem witness_InvalidForms :
    ((0 : Reg) = 0 ∨ (0 : Reg) = 3) ∧ ((4 : Reg) = 0 ∨ (4 : Reg) = 4) ∧ (0 : Reg) = 0 ∧
    ((1 : Reg) ≠ 4 ∧ (1 : Reg).val % 2 = 1) ∧ ((31 : Reg) ≠ 4 ∧ (31 : Reg).val % 2 = 1) ∧
    (31 : Reg) ≤ 31 ∧ (0 : Reg) ≤ 0 := by decide

/-- RaisedFaultsHaveTheirCause: each kind of record, the `Alignment` with an address under its
parameter, the two records with an address also at a word of `lmw`: its first, and its last after two
readable ones. -/
theorem witness_RaisedFaults :
    (f1 true).fault = none ∧
    exec (.lq 5 5 0) (f1 true) =
      .next { f1 true with fault := some (.illegalInstruction 0x100) } ∧
    exec (.lmw 4 4 0) (f1 true) = .next { f1 true with fault := some (.invalidForm 0x100) } ∧
    exec (.lmw 31 4 0) (f1 true) = .next { f1 true with fault := some (.alignment 0x100 none) } ∧
    exec (.lwz 3 4 3) (withStrictAlignment (f1 true)) = .next { withStrictAlignment (f1 true) with
      fault := some (.alignment 0x100 (some 0x1003)) } ∧
    exec (.lwzu 3 4 0x1D) (withIslands (f1 true)) = .next { withIslands (f1 true) with
      fault := some (.storageFault 0x100 0x101D) } ∧
    exec (.lmw 29 4 1) (withStrictAlignment (f1 false)) =
      .next { withStrictAlignment (f1 false) with fault := some (.alignment 0x100 (some 0x1001)) } ∧
    exec (.lmw 29 4 0x18) (withIslands (f1 false)) = .next { withIslands (f1 false) with
      fault := some (.storageFault 0x100 0x1020) } :=
  ⟨rfl, rfl, rfl, rfl, rfl, rfl, rfl, rfl⟩

/-- ZeroLoadsClearTheUpperBits: an update form, a doubleword and `lmw`. -/
theorem witness_ZeroLoads :
    (f1 false).fault = none ∧
    ((Instr.lbzux 5 4 5).writes.head? = some 5 ∧
      ∃ t, exec (.lbzux 5 4 5) (f1 false) = .next t ∧ t.fault = none) ∧
    ((Instr.ldx 0 0 0).writes.head? = some 0 ∧
      ∃ t, exec (.ldx 0 0 0) (f1 true) = .next t ∧ t.fault = none) ∧
    ∃ t, exec (.lmw 31 4 0x1C) (f1 false) = .next t ∧ t.fault = none :=
  ⟨rfl, ⟨rfl, completes_next (by decide)⟩, ⟨rfl, completes_next (by decide)⟩,
    completes_next (by decide)⟩

/-- AlgebraicLoadsCopyTheSign: a halfword and a word, in each mode. -/
theorem witness_AlgebraicLoads :
    (f1 true).fault = none ∧ (Instr.lha 3 4 7).mnemonic = .lha ∧
    (Instr.lha 3 4 7).writes.head? = some 3 ∧ (Instr.lwaux 3 4 6).writes.head? = some 3 ∧
    (∃ t, exec (.lha 3 4 7) (f1 true) = .next t ∧ t.fault = none) ∧
    ∃ t, exec (.lwaux 3 4 6) (f1 false) = .next t ∧ t.fault = none :=
  ⟨rfl, rfl, rfl, rfl, completes_next (by decide), completes_next (by decide)⟩

/-- IllegalInstructionIsRaisedByLqAlone: RTp = RA = 0 and RTp = RA = 31. -/
theorem witness_IllegalInstruction :
    exec (.lq 0 0 0) (f1 true) =
      .next { f1 true with fault := some (.illegalInstruction 0x100) } ∧
    exec (.lq 31 31 0xFFF) (f1 false) =
      .next { f1 false with fault := some (.illegalInstruction 0x100) } ∧
    (f1 true).fault = none := ⟨rfl, rfl, rfl⟩

/-- CompletionNeedsAValidForm: an update form and `lmw` complete. -/
theorem witness_CompletionNeedsAValidForm :
    (f1 true).fault = none ∧
    (∃ t, exec (.ldu 3 4 1) (f1 true) = .next t ∧ t.fault = none) ∧
    (∃ t, exec (.lmw 31 4 0x1C) (f1 false) = .next t ∧ t.fault = none) :=
  ⟨rfl, completes_next (by decide), completes_next (by decide)⟩

/-- LoadMultipleInLittleEndianModeRaisesAlignment: each clause, where RA and RT meet. -/
theorem witness_LoadMultipleInLittleEndianMode :
    ((0 : Reg) < 1 ∧ (30 : Reg) < 31 ∧ (f1 true).le = true) ∧ (0 : Reg) ≤ 0 ∧ (31 : Reg) ≤ 31 := by
  decide

/-- FailingAccessEndsTheLoad: each clause, at the first operand that fails. -/
theorem witness_FailingAccess :
    (let s := (f1 false).setGpr 4 0xFFFFFFFFFFFFFFFF;
      (Instr.lhz 3 4 0).wellFormed = true ∧ (Instr.lhz 3 4 0).mnemonic ≠ .lmw ∧
        2 ^ 64 < ((Instr.lhz 3 4 0).ea s).toNat + (Instr.lhz 3 4 0).mnemonic.bytes) ∧
    (let s := withStrictAlignment ((f1 false).setGpr 4 0xFFFFFFFFFFFFFFF7);
      let i := Instr.ldu 3 4 0
      i.wellFormed = true ∧ i.mnemonic ≠ .lmw ∧ (i.ea s).toNat + i.mnemonic.bytes ≤ 2 ^ 64 ∧
        alignFault s.params i.mnemonic (i.ea s) i.mnemonic.bytes = true) ∧
    (let s := withIslands (f1 true);
      let i := Instr.lq 8 4 1
      let j := Instr.lwzx 3 4 5
      let s' := s.setGpr 5 0x1D
      (i.ea s).toNat + i.mnemonic.bytes ≤ 2 ^ 64 ∧ j.wellFormed = true ∧ j.mnemonic ≠ .lmw ∧
        (j.ea s').toNat + j.mnemonic.bytes ≤ 2 ^ 64 ∧
        alignFault s'.params j.mnemonic (j.ea s') j.mnemonic.bytes = false ∧
        ∃ k < j.mnemonic.bytes, accessible s'.params ((j.ea s').toNat + k) = false) := by decide

/-- LoadMultipleEndsAtTheFirstFailingWord: each clause, the first word and a later one. -/
theorem witness_LoadMultipleEndsAtTheFirstFailingWord :
    ((4 : Reg) < 29 ∧ (f1 false).le = false ∧ 2 < 32 - (29 : Reg).val) ∧
    (let s := (f1 false).setGpr 4 0xFFFFFFFFFFFFFFFD;
      2 ^ 64 < (eaD 4 0 s + BitVec.ofNat 64 (4 * 0)).toNat + 4) ∧
    (let s := (f1 false).setGpr 4 0xFFFFFFFFFFFFFFF5;
      (∀ j < 2, Readable .lmw (eaD 4 0 s + BitVec.ofNat 64 (4 * j)) 4 s) ∧
        2 ^ 64 < (eaD 4 0 s + BitVec.ofNat 64 (4 * 2)).toNat + 4) ∧
    (let s := withStrictAlignment (f1 false);
      (eaD 4 1 s + BitVec.ofNat 64 (4 * 0)).toNat + 4 ≤ 2 ^ 64 ∧
        alignFault s.params .lmw (eaD 4 1 s + BitVec.ofNat 64 (4 * 0)) 4 = true) ∧
    (let s := withIslands (f1 false);
      (∀ j < 2, Readable .lmw (eaD 4 0x18 s + BitVec.ofNat 64 (4 * j)) 4 s) ∧
        (eaD 4 0x18 s + BitVec.ofNat 64 (4 * 2)).toNat + 4 ≤ 2 ^ 64 ∧
        alignFault s.params .lmw (eaD 4 0x18 s + BitVec.ofNat 64 (4 * 2)) 4 = false ∧
        ∃ b < 4, accessible s.params ((eaD 4 0x18 s + BitVec.ofNat 64 (4 * 2)).toNat + b) = false) := by
  decide

/-- OldTargetContentMakesNoDifference: the odd register of a pair, and a middle register of `lmw`. -/
theorem witness_OldTargetContent :
    (f1 false).fault = none ∧
    ((∃ t, exec (.lq 8 4 0) (f1 false) = .next t ∧ t.fault = none) ∧
      9 ∈ (Instr.lq 8 4 0).writes ∧ 9 ∉ (Instr.lq 8 4 0).reads) ∧
    ((∃ t, exec (.lmw 29 4 0) (f1 false) = .next t ∧ t.fault = none) ∧
      30 ∈ (Instr.lmw 29 4 0).writes ∧ 30 ∉ (Instr.lmw 29 4 0).reads) :=
  ⟨rfl, ⟨completes_next (by decide), by decide, by decide⟩,
    ⟨completes_next (by decide), by decide, by decide⟩⟩

/-- ResultsDependOnlyOnTheRegistersRead: a second state that differs in a register written and in one
neither read nor written. -/
theorem witness_ResultsDependOnlyOnTheRegistersRead :
    let s := f1 false
    let s' := (s.setGpr 3 7).setGpr 20 8
    s.fault = none ∧ s'.pc = s.pc ∧ s'.le = s.le ∧ s'.mem = s.mem ∧ s'.fault = s.fault ∧
      s'.params = s.params ∧ (∀ r ∈ (Instr.lbzux 3 4 5).reads, s'.gpr r = s.gpr r) ∧
      ∃ t, exec (.lbzux 3 4 5) s = .next t ∧ t.fault = none :=
  ⟨rfl, rfl, rfl, rfl, rfl, rfl, by decide, completes_next (by decide)⟩

/-- FaultsDoNotDependOnTheLoadedValue: an instruction that raises, one that is refused, one that
completes. -/
theorem witness_FaultsDoNotDependOnTheLoadedValue :
    (f1 true).fault = none ∧
    exec (.lmw 29 4 0) (f1 true) = .next { f1 true with fault := some (.alignment 0x100 none) } ∧
    exec (.lhz 3 0 0xFFFF) (f1 true) = .refused .addressWrap ∧
    ∃ t, exec (.lhz 3 0 0xFFFE) (f1 true) = .next t ∧ t.fault = none :=
  ⟨rfl, rfl, rfl, completes_next (by decide)⟩

/-- StepRunsTheDecodedInstruction: the lowest and the highest `pc` that a step can run at. -/
theorem witness_StepRunsTheDecodedInstruction :
    (let s := { f1 true with pc := 0 }.withFetchWord 32 0x88640009;
      s.fault = none ∧ s.pc.toNat % 4 = 0 ∧ s.pc.toNat ≠ 2 ^ 64 - 4 ∧
        (∀ k < 4, accessible s.params (s.pc.toNat + k) = true) ∧
        decodeBytes s.le (s.mem.bytesAt s.pc.toNat 4) = .ok (.lbz 3 4 9)) ∧
    (let s := { f1 false with pc := 0xFFFFFFFFFFFFFFF8 }.withFetchWord 32 0x7C6428AE;
      s.fault = none ∧ s.pc.toNat % 4 = 0 ∧ s.pc.toNat ≠ 2 ^ 64 - 4 ∧
        (∀ k < 4, accessible s.params (s.pc.toNat + k) = true) ∧
        decodeBytes s.le (s.mem.bytesAt s.pc.toNat 4) = .ok (.lbzx 3 4 5)) := by decide

/-- PlacedInstructionIsTheOneThatRuns: the fixture, with the four bytes at `pc` the only accessible ones
near it. -/
theorem witness_PlacedInstruction :
    let s := withIslands (f1 true)
    s.mem.wf ∧ s.fault = none ∧ s.pc.toNat % 4 = 0 ∧ s.pc.toNat ≠ 2 ^ 64 - 4 ∧
      ∀ k < 4, accessible s.params (s.pc.toNat + k) = true := by decide

/-- FetchIsRefusedAtABadPc: each clause. -/
theorem witness_FetchIsRefusedAtABadPc :
    ({ f1 true with pc := 0xFFFFFFFFFFFFFFFD }.pc.toNat % 4 ≠ 0 ∧
      { f1 true with pc := 0xFFFFFFFFFFFFFFFD }.fault = none) ∧
    ({ f1 true with pc := 0xFFFFFFFFFFFFFFFC }.pc.toNat = 2 ^ 64 - 4) := by decide

/-- FetchOfAnInaccessibleByteRaises: only the last byte of the word is inaccessible, and only the
first. -/
theorem witness_FetchOfAnInaccessibleByteRaises :
    let only := fun r : Config.Region =>
      { f1 true with params := { accessible := .onlyIn [r], alignFault := .never } }
    ((only ⟨0, 0x102⟩).fault = none ∧ (only ⟨0, 0x102⟩).pc.toNat % 4 = 0 ∧
      (only ⟨0, 0x102⟩).pc.toNat ≠ 2 ^ 64 - 4 ∧
      ∃ k < 4, accessible (only ⟨0, 0x102⟩).params ((only ⟨0, 0x102⟩).pc.toNat + k) = false) ∧
    (∃ k < 4, accessible (only ⟨0x101, 0x103⟩).params
      ((only ⟨0x101, 0x103⟩).pc.toNat + k) = false) := by decide

/-- WordsOutsideTheTableAreRefused: the word 0 at `pc` 0 of the state after reset. -/
theorem witness_WordsOutsideTheTable :
    State.reset.fault = none ∧ State.reset.pc.toNat % 4 = 0 ∧ State.reset.pc.toNat ≠ 2 ^ 64 - 4 ∧
    (∀ k < 4, accessible State.reset.params (State.reset.pc.toNat + k) = true) ∧
    ∀ row ∈ opcodeTable, ∀ w : InstrWord,
      w.toNat = modeSum State.reset.le State.reset.mem State.reset.pc.toNat 4 →
        w &&& row.mask ≠ row.pattern := by
  refine ⟨rfl, by decide, by decide, by decide, fun row hr w hw => ?_⟩
  have h0 : w = 0 := BitVec.eq_of_toNat_eq (hw.trans (by decide))
  subst h0
  revert row
  decide

/-- FaultsArePreciseAndTerminal: a fault raised by an instruction, and one raised by the fetch. -/
theorem witness_FaultsArePreciseAndTerminal :
    (f1 true).fault = none ∧
    faultAfter (f1 true) 0xBBA40010 = some (.alignment 0x100 none) ∧
    faultAfter (withIslands { f1 true with pc := 0x104 }) 0x88640009 =
      some (.storageFault 0x104 0x104) := by decide

/-- StepKeepsTheInvariant: a state with the invariant whose step completes, and one whose step raises
`Alignment` without an address. -/
theorem witness_StepKeepsTheInvariant :
    (Inv ((f1 false).withFetchWord 32 0x88640009) ∧
      ∃ t, step ((f1 false).withFetchWord 32 0x88640009) = .next t ∧ t.fault = none) ∧
    (Inv ((f1 true).withFetchWord 32 0xBBA40010) ∧
      ∃ t, step ((f1 true).withFetchWord 32 0xBBA40010) = .next t) :=
  ⟨⟨⟨by decide, by decide, (fun _ h => nomatch h), (fun _ h => nomatch h)⟩,
      completes_next (by decide)⟩,
    ⟨by decide, by decide, (fun _ h => nomatch h), (fun _ h => nomatch h)⟩, ⟨_, rfl⟩⟩

/-- RunIsAStraightLine: no step, and one step. -/
theorem witness_RunIsAStraightLine :
    (∃ t, stepN 0 (f1 true) = .next t ∧ t.fault = none) ∧
    (∃ t, stepN 1 ((f1 true).withFetchWord 32 0x88640009) = .next t ∧ t.fault = none) :=
  ⟨completes_next (by decide), completes_next (by decide)⟩

/-- The first two instructions of program P1, at `0x100`. -/
def p1 (le : Bool) : State :=
  let s := { f1 le with
    mem := Memory.writeBytes (Memory.writeBytes f1mem 0x100 (bytesOfWord le 0x8CA40001))
      0x104 (bytesOfWord le 0x8CC40001) }
  s.setGpr 4 0x1007

/-- LaunchedProgramEndsWithinItsLength and LaunchedProgramRunsItsOwnWords: the launch premises, in each
mode. -/
theorem witness_LaunchedProgram (le : Bool) :
    LaunchPremises (p1 le) 0x100 [0x8CA40001, 0x8CC40001] where
  noFault := rfl
  pcAligned := by decide
  pcAtBase := by cases le <;> rfl
  textInRange := by decide
  textAccessible := by cases le <;> decide
  textPresent := by cases le <;> decide

/-- LaunchedProgramRunsItsOwnWords: its second instruction is reached and decodes. -/
theorem witness_LaunchedProgramRunsItsOwnWords :
    (∃ t, stepN 1 (p1 true) = .next t ∧ t.fault = none) ∧
    decodeWord 0x8CC40001 = .ok (.lbzu 6 4 1) :=
  ⟨completes_next (by decide), by decide⟩

end Sys2Proof.Tests
end

section
/-! SUPPORT. What the address arithmetic is as integers: each displacement as a signed number, the base,
the sum modulo 2^64; and with them the statement about the seven effective addresses. -/

namespace Sys2Proof.Machine

/-! ### Displacements and the base as numbers -/

/-- The D displacement keeps its signed value (R55). -/
@[simp] theorem dispD_toInt (d : BitVec 16) : (dispD d).toInt = d.toInt :=
  BitVec.toInt_signExtend_of_le (by decide)

/-- The two zero bits of a DS displacement scale it by 4 (R56). -/
@[simp] theorem dispDS_toInt (ds : BitVec 14) : (dispDS ds).toInt = 4 * ds.toInt :=
  calc (dispDS ds).toInt
      = (ds ++ 0#2).toInt := BitVec.toInt_signExtend_of_le (by decide)
    _ = 4 * ds.toInt := BitVec.toInt_append_zero

/-- The four zero bits of a DQ displacement scale it by 16 (R57). -/
@[simp] theorem dispDQ_toInt (dq : BitVec 12) : (dispDQ dq).toInt = 16 * dq.toInt :=
  calc (dispDQ dq).toInt
      = (dq ++ 0#4).toInt := BitVec.toInt_signExtend_of_le (by decide)
    _ = 16 * dq.toInt := BitVec.toInt_append_zero

/-- The base `(RA|0)` as a number (R6). -/
theorem baseOrZero_toNat (ra : Reg) (s : State) :
    ((baseOrZero ra s).toNat : Int) = if ra = 0 then 0 else ((s.gpr ra).toNat : Int) := by
  unfold baseOrZero
  split
  · rfl
  · rfl

/-! ### Sums modulo 2^64 (R13) -/

/-- A base plus an index, both read as unsigned numbers. -/
theorem Word.add_toNat_index (b i : Word) :
    ((b + i).toNat : Int) = (b.toNat + i.toNat) % 2 ^ 64 := by
  simp [BitVec.toNat_add]

/-- A base plus a displacement that is read as a signed number: the unsigned and the signed reading of
the displacement differ by a multiple of 2^64. -/
theorem Word.add_toNat_displacement (b o : Word) :
    ((b + o).toNat : Int) = (b.toNat + o.toInt) % 2 ^ 64 := by
  have hread : (o.toNat : Int) % 2 ^ 64 = o.toInt % 2 ^ 64 := by
    rw [BitVec.toInt_eq_toNat_bmod]
    exact Int.bmod_emod.symm
  rw [Word.add_toNat_index, Int.add_emod, hread, ← Int.add_emod]

/-- Settles O7: each form is one of the two sums, over the base of R6 or over `x[RA]`. -/
theorem effectiveAddressIsTheSumModulo : Obligations.EffectiveAddressIsTheSumModulo := by
  intro s ra rb d ds dq base
  have hbase : ((baseOrZero ra s).toNat : Int) = base := baseOrZero_toNat ra s
  rw [← hbase, ← dispD_toInt d, ← dispDS_toInt ds, ← dispDQ_toInt dq]
  exact ⟨Word.add_toNat_displacement _ _, Word.add_toNat_displacement _ _,
    Word.add_toNat_displacement _ _, Word.add_toNat_index _ _,
    Word.add_toNat_displacement _ _, Word.add_toNat_displacement _ _, Word.add_toNat_index _ _⟩

end Sys2Proof.Machine
end

section
/-! SUPPORT. The four shapes of the 28 instructions: one load, one load with update, `lq`, `lmw`. A
statement over every instruction is proved once for each shape. -/

namespace Sys2Proof.Machine

/-- What an instruction runs, with its effective address, its mnemonic and access size from the tables
of R45 and R71 to R75, and its registers written from R22. -/
inductive LoadShape : Instr → Prop
  /-- A load without update (R70). -/
  | load {i : Instr} (fill : BitVec (8 * i.mnemonic.bytes) → Word) (rt : Reg)
      (hexec : ∀ s, exec i s = loadInto i.mnemonic i.mnemonic.bytes fill rt (i.ea s) s)
      (hwrites : i.writes = [rt]) : LoadShape i
  /-- A load with update (R75). -/
  | update {i : Instr} (fill : BitVec (8 * i.mnemonic.bytes) → Word) (rt ra : Reg)
      (hexec : ∀ s, exec i s = loadIntoUpdate i.mnemonic i.mnemonic.bytes fill rt ra (i.ea s) s)
      (hwrites : i.writes = [rt, ra]) : LoadShape i
  /-- The quadword load (R123). -/
  | quad (rtp ra : Reg) (dq : BitVec 12) : LoadShape (.lq rtp ra dq)
  /-- Load Multiple Word (R130). -/
  | multiple (rt ra : Reg) (d : BitVec 16) : LoadShape (.lmw rt ra d)

/-- Every instruction has one of the four shapes. -/
theorem loadShape (i : Instr) : LoadShape i :=
  match i with
  | .lbz rt .. | .lbzx rt .. | .lhz rt .. | .lhzx rt .. | .lwz rt .. | .lwzx rt .. | .ld rt ..
  | .ldx rt .. => .load zext rt (fun _ => rfl) rfl
  | .lha rt .. | .lhax rt .. | .lwa rt .. | .lwax rt .. => .load sext rt (fun _ => rfl) rfl
  | .lhbrx rt .. => .load (fun v => zext (brev 2 v)) rt (fun _ => rfl) rfl
  | .lwbrx rt .. => .load (fun v => zext (brev 4 v)) rt (fun _ => rfl) rfl
  | .ldbrx rt .. => .load (fun v => zext (brev 8 v)) rt (fun _ => rfl) rfl
  | .lbzu rt ra _ | .lbzux rt ra _ | .lhzu rt ra _ | .lhzux rt ra _ | .lwzu rt ra _
  | .lwzux rt ra _ | .ldu rt ra _ | .ldux rt ra _ => .update zext rt ra (fun _ => rfl) rfl
  | .lhau rt ra _ | .lhaux rt ra _ | .lwaux rt ra _ => .update sext rt ra (fun _ => rfl) rfl
  | .lq rtp ra dq => .quad rtp ra dq
  | .lmw rt ra d => .multiple rt ra d

/-- `lmw` writes the registers from RT up. -/
theorem mem_writes_lmw {rt ra r : Reg} {d : BitVec 16} :
    r ∈ (Instr.lmw rt ra d).writes ↔ rt ≤ r := by
  simp [Instr.writes]

/-- `lq` writes its pair. -/
theorem mem_writes_lq {rtp ra r : Reg} {dq : BitVec 12} :
    r ∈ (Instr.lq rtp ra dq).writes ↔ r = rtp ∨ r = rtp + 1 := by
  simp [Instr.writes]

/-- `lq` in a valid form whose access is readable completes. -/
theorem execLq_of_readable {rtp ra : Reg} {dq : BitVec 12} {s : State} (hne : rtp ≠ ra)
    (heven : rtp.val % 2 = 0) (h : Readable .lq (eaDQ ra dq s) 16 s) :
    execLq rtp ra dq s =
      .next ((s.setGprPair rtp (storageValue s.le s.mem (eaDQ ra dq s).toNat 16)).advance) := by
  rw [execLq, if_neg hne, if_neg (by omega), memRead_of_readable h, withValue_ok]

/-- `lmw` in a valid form, in Big-Endian mode, whose words are all readable completes. -/
theorem execLmw_of_readable {rt ra : Reg} {d : BitVec 16} {s : State} (hlt : ra < rt)
    (hbig : s.le = false)
    (h : ∀ k < 32 - rt.val, Readable .lmw (eaD ra d s + BitVec.ofNat 64 (4 * k)) 4 s) :
    execLmw rt ra d s =
      .next ((s.setGprsFrom rt.val (((List.range (32 - rt.val)).map fun k =>
        storageValue s.le s.mem (eaD ra d s + BitVec.ofNat 64 (4 * k)).toNat 4).map
          zext)).advance) := by
  rw [execLmw, if_neg (not_le.2 hlt), if_neg (by simp [hbig]), readWords_of_readable _ _ h,
    withValue_ok]

end Sys2Proof.Machine
end

section
/-! SUPPORT. Everything an instruction can do to the state (R22, R70, R200): it completes and writes
registers of its Writes column, or raises, or is refused; and with it the frame of every instruction. -/

namespace Sys2Proof.Machine

/-- `r` is one of the three ends of an instruction that starts in `s` and writes the registers `ws`:
completion, a raise at `pc`, the refusal at the top of storage. -/
def LoadOutcome (s : State) (ws : List Reg) (r : Result) : Prop :=
  (∃ t, r = .next t ∧ t.mem = s.mem ∧ OnlyChanged s t ws) ∨
  (∃ f : Fault, f.pc = s.pc ∧ r = .next { s with fault := some f }) ∨
  r = .refused .addressWrap

/-- Advancing after writes to registers of `ws` alone is a completion. -/
theorem LoadOutcome.of_advance {s u : State} {ws : List Reg} {r : Result}
    (hr : r = .next u.advance) (hgpr : ∀ g, g ∉ ws → u.gpr g = s.gpr g) (hpc : u.pc = s.pc)
    (hle : u.le = s.le) (hmem : u.mem = s.mem) (hfault : u.fault = s.fault)
    (hparams : u.params = s.params) : LoadOutcome s ws r :=
  .inl ⟨u.advance, hr, hmem, {
    gpr := hgpr
    pc := by rw [State.advance_pc, hpc]
    le := hle
    mem := fun a => by rw [State.advance_mem, hmem]
    fault := hfault
    params := hparams }⟩

/-- The record of an access that raises names the instruction at `pc`. -/
theorem memRead_raise_pc {m : Mnemonic} {a : Word} {n : Nat} {s : State} {f : Fault}
    (h : memRead m a n s = .error (.raise f)) : f.pc = s.pc := by
  obtain rfl | rfl := memRead_raise h <;> rfl

theorem loadInto_outcome (m : Mnemonic) (n : Nat) (fill : BitVec (8 * n) → Word) (rt : Reg)
    (ea : Word) (s : State) : LoadOutcome s [rt] (loadInto m n fill rt ea s) := by
  obtain ⟨-, e⟩ | ⟨f, hf, e⟩ | ⟨-, e⟩ := loadInto_cases m n fill rt ea s
  · refine .of_advance e (fun g hg => ?_) rfl rfl rfl rfl rfl
    exact State.gpr_setGpr_ne _ _ (List.ne_of_not_mem_cons hg)
  · exact .inr (.inl ⟨f, memRead_raise_pc hf, e⟩)
  · exact .inr (.inr e)

theorem loadIntoUpdate_outcome (m : Mnemonic) (n : Nat) (fill : BitVec (8 * n) → Word)
    (rt ra : Reg) (ea : Word) (s : State) :
    LoadOutcome s [rt, ra] (loadIntoUpdate m n fill rt ra ea s) := by
  obtain ⟨-, e⟩ | ⟨-, -, ⟨-, e⟩ | ⟨f, hf, e⟩ | ⟨-, e⟩⟩ := loadIntoUpdate_cases m n fill rt ra ea s
  · exact .inr (.inl ⟨_, rfl, e⟩)
  · refine .of_advance e (fun g hg => ?_) rfl rfl rfl rfl rfl
    obtain ⟨hrt, hra⟩ : g ≠ rt ∧ g ≠ ra := by simpa using hg
    rw [State.gpr_setGpr_ne _ _ hra, State.gpr_setGpr_ne _ _ hrt]
  · exact .inr (.inl ⟨f, memRead_raise_pc hf, e⟩)
  · exact .inr (.inr e)

theorem execLq_outcome (rtp ra : Reg) (dq : BitVec 12) (s : State) :
    LoadOutcome s (Instr.lq rtp ra dq).writes (execLq rtp ra dq s) := by
  obtain ⟨-, e⟩ | ⟨-, -, e⟩ | ⟨-, -, ⟨-, e⟩ | ⟨f, hf, e⟩ | ⟨-, e⟩⟩ := execLq_cases rtp ra dq s
  · exact .inr (.inl ⟨_, rfl, e⟩)
  · exact .inr (.inl ⟨_, rfl, e⟩)
  · refine .of_advance e (fun g hg => ?_) rfl rfl rfl rfl rfl
    obtain ⟨hrtp, hnext⟩ := not_or.1 (mt mem_writes_lq.2 hg)
    rw [State.gpr_setGprPair, if_neg hnext, if_neg hrtp]
  · exact .inr (.inl ⟨f, memRead_raise_pc hf, e⟩)
  · exact .inr (.inr e)

theorem execLmw_outcome (rt ra : Reg) (d : BitVec 16) (s : State) :
    LoadOutcome s (Instr.lmw rt ra d).writes (execLmw rt ra d s) := by
  obtain ⟨-, e⟩ | ⟨-, -, e⟩ | ⟨-, -, ⟨-, e⟩ | ⟨k, -, -, ⟨f, hf, e⟩ | ⟨-, e⟩⟩⟩ :=
    execLmw_cases rt ra d s
  · exact .inr (.inl ⟨_, rfl, e⟩)
  · exact .inr (.inl ⟨_, rfl, e⟩)
  · refine .of_advance e (fun g hg => ?_) (by simp) (by simp) (by simp) (by simp) (by simp)
    have hbelow : ¬ rt.val ≤ g.val := mt mem_writes_lmw.2 hg
    rw [State.gpr_setGprsFrom, if_neg fun h => hbelow h.left]
  · exact .inr (.inl ⟨f, memRead_raise_pc hf, e⟩)
  · exact .inr (.inr e)

/-- Everything an instruction can do. -/
theorem exec_outcome (i : Instr) (s : State) : LoadOutcome s i.writes (exec i s) := by
  cases loadShape i with
  | load fill rt hexec hwrites => rw [hexec, hwrites]; exact loadInto_outcome ..
  | update fill rt ra hexec hwrites => rw [hexec, hwrites]; exact loadIntoUpdate_outcome ..
  | quad rtp ra dq => exact execLq_outcome rtp ra dq s
  | multiple rt ra d => exact execLmw_outcome rt ra d s

/-- Settles O29: of the three ends of an instruction, the two that answer `next`. -/
theorem execCompletesOrRaisesAndNothingElse :
    Obligations.ExecCompletesOrRaisesAndNothingElse := by
  intro i s t h
  obtain ⟨u, hu, hdone⟩ | ⟨f, hpc, hf⟩ | hr := exec_outcome i s
  · obtain rfl : u = t := Host.Outcome.next.inj (hu.symm.trans h)
    exact .inl hdone
  · exact .inr ⟨f, hpc, Host.Outcome.next.inj (h.symm.trans hf)⟩
  · cases hr.symm.trans h

end Sys2Proof.Machine
end

section
/-! SUPPORT. Two runs of one instruction from states that agree on what it reads (R22, R84): the same
effective address, the same tests, the same values written. -/

namespace Sys2Proof.Machine

/-! ### The address depends on the Reads column alone -/

theorem baseOrZero_congr {s s' : State} {ra : Reg} (h : ∀ r ∈ baseReads ra, s'.gpr r = s.gpr r) :
    baseOrZero ra s' = baseOrZero ra s := by
  unfold baseOrZero
  split
  case isTrue => rfl
  case isFalse hne => exact h ra (by simp [baseReads, hne])

theorem eaX_congr {s s' : State} {ra rb : Reg}
    (h : ∀ r ∈ baseReads ra ++ [rb], s'.gpr r = s.gpr r) : eaX ra rb s' = eaX ra rb s := by
  rw [eaX, eaX, baseOrZero_congr fun r hr => h r (List.mem_append_left _ hr), h rb (by simp)]

theorem eaUpdateX_congr {s s' : State} {ra rb : Reg} (h : ∀ r ∈ [ra, rb], s'.gpr r = s.gpr r) :
    eaUpdateX ra rb s' = eaUpdateX ra rb s := by
  rw [eaUpdateX, eaUpdateX, h ra (by simp), h rb (by simp)]

/-- The effective address of an instruction is a function of the registers it reads. -/
theorem ea_congr {s s' : State} (i : Instr) (h : ∀ r ∈ i.reads, s'.gpr r = s.gpr r) :
    i.ea s' = i.ea s :=
  match i, h with
  | .lbz _ _ d, h | .lhz _ _ d, h | .lha _ _ d, h | .lwz _ _ d, h | .lmw _ _ d, h =>
    congrArg (· + dispD d) (baseOrZero_congr h)
  | .lwa _ _ ds, h | .ld _ _ ds, h => congrArg (· + dispDS ds) (baseOrZero_congr h)
  | .lq _ _ dq, h => congrArg (· + dispDQ dq) (baseOrZero_congr h)
  | .lbzx .., h | .lhzx .., h | .lhax .., h | .lwzx .., h | .lwax .., h | .ldx .., h
  | .lhbrx .., h | .lwbrx .., h | .ldbrx .., h => eaX_congr h
  | .lbzu _ ra d, h | .lhzu _ ra d, h | .lhau _ ra d, h | .lwzu _ ra d, h =>
    congrArg (· + dispD d) (h ra (by simp [Instr.reads]))
  | .ldu _ ra ds, h => congrArg (· + dispDS ds) (h ra (by simp [Instr.reads]))
  | .lbzux .., h | .lhzux .., h | .lhaux .., h | .lwzux .., h | .lwaux .., h | .ldux .., h =>
    eaUpdateX_congr h

/-! ### Two runs -/

/-- The two states agree on the mode, storage and parameters, all that the tests of an access (R36) and
its value (R37) depend on beside the address, and on the fault status. -/
structure SameStorageView (s s' : State) : Prop where
  le     : s'.le = s.le
  mem    : s'.mem = s.mem
  fault  : s'.fault = s.fault
  params : s'.params = s.params

/-- If the run that answers `r` completes, so does the run that answers `r'`, with the same value in
each register of `ws`. -/
def CompletesAlike (ws : List Reg) (r r' : Result) : Prop :=
  ∀ t, r = .next t → t.fault = none →
    ∃ t', r' = .next t' ∧ t'.fault = none ∧ ∀ g ∈ ws, t'.gpr g = t.gpr g

theorem CompletesAlike.of_next {ws : List Reg} {r r' : Result} {t t' : State} (hr : r = .next t)
    (hr' : r' = .next t') (hfault : t'.fault = t.fault) (hgpr : ∀ g ∈ ws, t'.gpr g = t.gpr g) :
    CompletesAlike ws r r' := by
  rintro u hu hnone
  obtain rfl : t = u := Host.Outcome.next.inj (hr.symm.trans hu)
  exact ⟨t', hr', hfault.trans hnone, hgpr⟩

/-- A run that raises does not complete. -/
theorem CompletesAlike.of_raise {ws : List Reg} {r r' : Result} {s : State} {f : Fault}
    (hr : r = .next { s with fault := some f }) : CompletesAlike ws r r' := by
  rintro u hu hnone
  obtain rfl := Host.Outcome.next.inj (hr.symm.trans hu)
  cases hnone

/-- A run that is refused does not complete. -/
theorem CompletesAlike.of_refused {ws : List Reg} {r r' : Result} {e : Refusal}
    (hr : r = .refused e) : CompletesAlike ws r r' := by
  intro u hu _
  cases hr.symm.trans hu

section
variable {s s' : State}

/-- The tests of an access look at the parameters alone (R36). -/
theorem SameStorageView.readable (v : SameStorageView s s') {m : Mnemonic} {ea : Word} {n : Nat}
    (h : Readable m ea n s) : Readable m ea n s' := by
  rwa [Readable, v.params]

theorem loadInto_completesAlike (v : SameStorageView s s') (m : Mnemonic) (n : Nat)
    (fill : BitVec (8 * n) → Word) (rt : Reg) (ea : Word) :
    CompletesAlike [rt] (loadInto m n fill rt ea s) (loadInto m n fill rt ea s') := by
  obtain ⟨hr, e⟩ | ⟨f, -, e⟩ | ⟨-, e⟩ := loadInto_cases m n fill rt ea s
  · have e' := loadInto_of_readable fill rt (v.readable hr)
    rw [v.le, v.mem] at e'
    refine .of_next e e' v.fault fun g hg => ?_
    obtain rfl := List.mem_singleton.1 hg
    simp
  · exact .of_raise e
  · exact .of_refused e

theorem loadIntoUpdate_completesAlike (v : SameStorageView s s') (m : Mnemonic) (n : Nat)
    (fill : BitVec (8 * n) → Word) (rt ra : Reg) (ea : Word) :
    CompletesAlike [rt, ra] (loadIntoUpdate m n fill rt ra ea s)
      (loadIntoUpdate m n fill rt ra ea s') := by
  obtain ⟨-, e⟩ | ⟨h0, ht, ⟨hr, e⟩ | ⟨f, -, e⟩ | ⟨-, e⟩⟩ :=
    loadIntoUpdate_cases m n fill rt ra ea s
  · exact .of_raise e
  · have e' := loadIntoUpdate_of_readable fill h0 ht (v.readable hr)
    rw [v.le, v.mem] at e'
    refine .of_next e e' v.fault fun g hg => ?_
    obtain rfl | rfl : g = rt ∨ g = ra := by simpa using hg
    · simp [State.gpr_setGpr_ne _ _ ht.symm]
    · simp
  · exact .of_raise e
  · exact .of_refused e

theorem execLq_completesAlike (v : SameStorageView s s') {rtp ra : Reg} {dq : BitVec 12}
    (hea : eaDQ ra dq s' = eaDQ ra dq s) :
    CompletesAlike (Instr.lq rtp ra dq).writes (execLq rtp ra dq s) (execLq rtp ra dq s') := by
  obtain ⟨-, e⟩ | ⟨-, -, e⟩ | ⟨hne, heven, ⟨hr, e⟩ | ⟨f, -, e⟩ | ⟨-, e⟩⟩ :=
    execLq_cases rtp ra dq s
  · exact .of_raise e
  · exact .of_raise e
  · have e' := execLq_of_readable hne heven (hea ▸ v.readable hr)
    rw [v.le, v.mem, hea] at e'
    refine .of_next e e' v.fault fun g hg => ?_
    obtain rfl | rfl := mem_writes_lq.1 hg <;> simp [State.gpr_setGprPair]
  · exact .of_raise e
  · exact .of_refused e

theorem execLmw_completesAlike (v : SameStorageView s s') {rt ra : Reg} {d : BitVec 16}
    (hea : eaD ra d s' = eaD ra d s) :
    CompletesAlike (Instr.lmw rt ra d).writes (execLmw rt ra d s) (execLmw rt ra d s') := by
  obtain ⟨-, e⟩ | ⟨-, -, e⟩ | ⟨hlt, hbig, ⟨hr, e⟩ | ⟨k, -, -, ⟨f, -, e⟩ | ⟨-, e⟩⟩⟩ :=
    execLmw_cases rt ra d s
  · exact .of_raise e
  · exact .of_raise e
  · have e' := execLmw_of_readable hlt (v.le.trans hbig) fun k hk =>
      hea ▸ v.readable (hr k hk)
    rw [v.le, v.mem, hea] at e'
    refine .of_next e e' (by simp [v.fault]) fun g hg => ?_
    have hfrom : rt.val ≤ g.val := mem_writes_lmw.1 hg
    simp [State.gpr_setGprsFrom, hfrom]
  · exact .of_raise e
  · exact .of_refused e

/-- Two states that agree on the registers read and on storage, mode and parameters complete alike. -/
theorem exec_completesAlike (v : SameStorageView s s') (i : Instr)
    (hreads : ∀ r ∈ i.reads, s'.gpr r = s.gpr r) :
    CompletesAlike i.writes (exec i s) (exec i s') := by
  have hea : i.ea s' = i.ea s := ea_congr i hreads
  cases loadShape i with
  | load fill rt hexec hwrites =>
    rw [hexec, hexec, hwrites, hea]
    exact loadInto_completesAlike v _ _ fill rt _
  | update fill rt ra hexec hwrites =>
    rw [hexec, hexec, hwrites, hea]
    exact loadIntoUpdate_completesAlike v _ _ fill rt ra _
  | quad rtp ra dq => exact execLq_completesAlike v hea
  | multiple rt ra d => exact execLmw_completesAlike v hea

end

/-- Settles O38, shape by shape: the address and the loaded value are the same in both runs. -/
theorem resultsDependOnlyOnTheRegistersRead :
    Obligations.ResultsDependOnlyOnTheRegistersRead := by
  intro i s s' t _ ht _ hle hmem hfault hparams hreads h
  exact exec_completesAlike ⟨hle, hmem, hfault, hparams⟩ i hreads t h ht

end Sys2Proof.Machine
end

section
/-! SUPPORT. How the value of a storage operand (R37) is put together from the values of its parts, in
each mode; and with it what loads of different widths see of one doubleword (R38). -/

namespace Sys2Proof.Machine

/-! ### Bytes as digits -/

/-- The little-endian reading takes the bytes as base-256 digits, the least significant first. -/
theorem littleValue_eq_ofDigits (bs : List Byte) :
    littleValue bs = Nat.ofDigits 256 (bs.map BitVec.toNat) := by
  induction bs with
  | nil => rfl
  | cons b bs ih => rw [littleValue, ih, List.map_cons, Nat.ofDigits_cons]

/-- The big-endian reading is the little-endian one of the bytes in the opposite order. -/
theorem bigValue_eq_littleValue_reverse (bs : List Byte) :
    bigValue bs = littleValue bs.reverse := by
  rw [bigValue, List.foldl_eq_foldr_reverse]
  induction bs.reverse with
  | nil => rfl
  | cons b bs ih => rw [List.foldr_cons, ih, littleValue]; omega

theorem littleValue_lt (bs : List Byte) : littleValue bs < 2 ^ (8 * bs.length) := by
  have hdigit : ∀ d ∈ bs.map BitVec.toNat, d < 256 := by
    simpa using fun b (_ : b ∈ bs) => b.isLt
  have := Nat.ofDigits_lt_base_pow_length (by decide) hdigit
  rwa [← littleValue_eq_ofDigits, List.length_map, show 256 = 2 ^ 8 from rfl, ← pow_mul] at this

theorem littleValue_append (bs cs : List Byte) :
    littleValue (bs ++ cs) = littleValue cs * 2 ^ (8 * bs.length) + littleValue bs := by
  simp only [littleValue_eq_ofDigits, List.map_append, Nat.ofDigits_append, List.length_map, pow_mul]
  ring

theorem bigValue_lt (bs : List Byte) : bigValue bs < 2 ^ (8 * bs.length) := by
  simpa [bigValue_eq_littleValue_reverse] using littleValue_lt bs.reverse

theorem bigValue_append (bs cs : List Byte) :
    bigValue (bs ++ cs) = bigValue bs * 2 ^ (8 * cs.length) + bigValue cs := by
  simp [bigValue_eq_littleValue_reverse, littleValue_append]

/-! ### The bytes and the value of an operand -/

@[simp] theorem Memory.length_bytesAt (m : Memory) (a n : Nat) : (m.bytesAt a n).length = n := by
  simp [Memory.bytesAt]

theorem Memory.bytesAt_add (m : Memory) (a j k : Nat) :
    m.bytesAt a (j + k) = m.bytesAt a j ++ m.bytesAt (a + j) k := by
  simp [Memory.bytesAt, List.range_add, Nat.add_assoc]

/-- In Big-Endian mode the value of an operand is the big-endian reading of its bytes: none is lost. -/
theorem storageValue_big_toNat (m : Memory) (a n : Nat) :
    (storageValue false m a n).toNat = bigValue (m.bytesAt a n) := by
  simpa [storageValue] using Nat.mod_eq_of_lt (bigValue_lt (m.bytesAt a n))

/-- In Little-Endian mode the value of an operand is the little-endian reading of its bytes. -/
theorem storageValue_little_toNat (m : Memory) (a n : Nat) :
    (storageValue true m a n).toNat = littleValue (m.bytesAt a n) := by
  simpa [storageValue] using Nat.mod_eq_of_lt (littleValue_lt (m.bytesAt a n))

/-! ### Adjacent parts of one operand -/

/-- A number made of a high and a low part has them as its slices. -/
theorem extractLsb'_of_toNat_eq {n j k : Nat} {v : BitVec n} {hi : BitVec j} {lo : BitVec k}
    (h : v.toNat = hi.toNat * 2 ^ k + lo.toNat) :
    v.extractLsb' k j = hi ∧ v.extractLsb' 0 k = lo := by
  constructor
  · apply BitVec.eq_of_toNat_eq
    rw [BitVec.extractLsb'_toNat, h, Nat.shiftRight_eq_div_pow, Nat.add_comm,
      Nat.add_mul_div_right _ _ (Nat.two_pow_pos k), Nat.div_eq_of_lt lo.isLt, Nat.zero_add,
      Nat.mod_eq_of_lt hi.isLt]
  · apply BitVec.eq_of_toNat_eq
    rw [BitVec.extractLsb'_toNat, h, Nat.shiftRight_zero, Nat.mul_add_mod_self_right,
      Nat.mod_eq_of_lt lo.isLt]

/-- In Big-Endian mode the first `j` bytes of an operand are its high part (R37, R38). -/
theorem storageValue_big_slices (m : Memory) (a j k : Nat) :
    (storageValue false m a (j + k)).extractLsb' (8 * k) (8 * j) = storageValue false m a j ∧
    (storageValue false m a (j + k)).extractLsb' 0 (8 * k) = storageValue false m (a + j) k := by
  refine extractLsb'_of_toNat_eq ?_
  simp only [storageValue_big_toNat, Memory.bytesAt_add, bigValue_append, Memory.length_bytesAt]

/-- In Little-Endian mode the first `j` bytes of an operand are its low part (R37, R38). -/
theorem storageValue_little_slices (m : Memory) (a j k : Nat) :
    (storageValue true m a (j + k)).extractLsb' (8 * j) (8 * k) = storageValue true m (a + j) k ∧
    (storageValue true m a (j + k)).extractLsb' 0 (8 * j) = storageValue true m a j := by
  refine extractLsb'_of_toNat_eq ?_
  simp only [storageValue_little_toNat, Memory.bytesAt_add, littleValue_append,
    Memory.length_bytesAt]

/-! ### Loads of different widths at one doubleword -/

/-- Where the index is greater by `o`, so is the address of the indexed form. -/
theorem eaX_of_index_add {ra rb rc : Reg} {s : State} {o : Word} (h : s.gpr rc = s.gpr rb + o) :
    eaX ra rc s = eaX ra rb s + o := by
  rw [eaX, eaX, h, BitVec.add_assoc]

/-- A load without update whose access is readable completes with the filled value in RT. -/
theorem loadInto_gpr_of_readable {m : Mnemonic} {n : Nat} {ea : Word} {s : State}
    (fill : BitVec (8 * n) → Word) (rt : Reg) (h : Readable m ea n s) :
    ∃ t, loadInto m n fill rt ea s = .next t ∧
      t.gpr rt = fill (storageValue s.le s.mem ea.toNat n) :=
  ⟨_, loadInto_of_readable fill rt h, by simp⟩

/-- A doubleword fills the whole register: there is nothing to extend (R76). -/
theorem zext_doubleword (v : BitVec 64) : zext v = v := BitVec.setWidth_eq v

/-- Settles O28: the byte is the first part of the doubleword cut as 1 + 7 bytes, the word the second
part of it cut as 4 + 4; which slice a part is depends on the mode. -/
theorem narrowLoadsSeeTheirPartOfADoubleword :
    Obligations.NarrowLoadsSeeTheirPartOfADoubleword := by
  intro s rt ra rb rc ea hrc hdouble hbyte hword
  have hnowrap : (ea + 4).toNat = ea.toNat + 4 := by
    obtain ⟨hfits, -⟩ := hdouble
    bv_omega
  obtain ⟨t, ht, htgpr⟩ := loadInto_gpr_of_readable zext rt hdouble
  obtain ⟨u, hu, hugpr⟩ := loadInto_gpr_of_readable zext rt hbyte
  obtain ⟨v, hv, hvgpr⟩ := loadInto_gpr_of_readable zext rt hword
  rw [zext_doubleword] at htgpr
  rw [hnowrap] at hvgpr
  refine ⟨t, u, v, ht, hu, (congrArg (loadInto .lwzx 4 zext rt · s) (eaX_of_index_add hrc)).trans hv,
    fun hle => ?_, fun hle => ?_⟩
  · rw [hle] at htgpr hugpr hvgpr
    obtain ⟨hfirst, -⟩ := storageValue_big_slices s.mem ea.toNat 1 7
    obtain ⟨-, hlast⟩ := storageValue_big_slices s.mem ea.toNat 4 4
    rw [htgpr, hugpr, hvgpr]
    exact ⟨congrArg zext hfirst.symm, congrArg zext hlast.symm⟩
  · rw [hle] at htgpr hugpr hvgpr
    obtain ⟨-, hfirst⟩ := storageValue_little_slices s.mem ea.toNat 1 7
    obtain ⟨hlast, -⟩ := storageValue_little_slices s.mem ea.toNat 4 4
    rw [htgpr, hugpr, hvgpr]
    exact ⟨congrArg zext hfirst.symm, congrArg zext hlast.symm⟩

end Sys2Proof.Machine
end

section
/-! SUPPORT. The opcode map read both ways: the row a word decodes by, and, layout by layout, how a
word is put together from its fixed bits and its operand fields (R51 to R54, R59 to R61); and with it
the statements that decoding and encoding undo each other. -/

namespace Sys2Proof

/-! ### The row a word decodes by -/

theorem OpcodeRow.selects_iff {r : OpcodeRow} {w : InstrWord} :
    r.selects w = true ↔ w &&& r.mask = r.pattern := by
  simp [OpcodeRow.selects]

/-- A word matches at most one row: the word under both masks would be either row's pattern under
the mask of the other, and these differ. -/
theorem opcodeRow_unique {r q : OpcodeRow} {w : InstrWord} (hr : r ∈ opcodeTable)
    (hq : q ∈ opcodeTable) (hrw : w &&& r.mask = r.pattern) (hqw : w &&& q.mask = q.pattern) :
    r = q := by
  have hsymm : Std.Symm fun r q : OpcodeRow => r.pattern &&& q.mask ≠ q.pattern &&& r.mask :=
    ⟨fun _ _ h => h.symm⟩
  by_contra hne
  refine opcodeTable_pairwise_disjoint.forall hr hq hne ?_
  rw [← hrw, ← hqw, BitVec.and_assoc, BitVec.and_assoc, BitVec.and_comm r.mask]

/-- Each mnemonic has one row (R59). -/
theorem opcodeRow_eq_of_mnemonic_eq {r q : OpcodeRow} (hr : r ∈ opcodeTable) (hq : q ∈ opcodeTable)
    (h : r.mnemonic = q.mnemonic) : r = q :=
  List.inj_on_of_nodup_map (by decide : (opcodeTable.map OpcodeRow.mnemonic).Nodup) hr hq h

/-- All that decoding answers (R60): the word's fields, under the mnemonic of a row it matches. -/
theorem decodeWord_eq_ok_iff {w : InstrWord} {i : Instr} :
    decodeWord w = .ok i ↔
      ∃ r ∈ opcodeTable, w &&& r.mask = r.pattern ∧ instrOf r.mnemonic w = i := by
  unfold decodeWord
  cases hfind : opcodeTable.find? (·.selects w) with
  | none =>
    have hnone : ∀ r ∈ opcodeTable, w &&& r.mask ≠ r.pattern := by
      simpa [OpcodeRow.selects_iff] using hfind
    simpa using fun r hr hw => absurd hw (hnone r hr)
  | some r =>
    have hr : r ∈ opcodeTable := List.mem_of_find?_eq_some hfind
    have hw : w &&& r.mask = r.pattern :=
      OpcodeRow.selects_iff.1 (List.find?_some (p := fun r : OpcodeRow => r.selects w) hfind)
    constructor
    · intro h
      exact ⟨r, hr, hw, Except.ok.inj h⟩
    · rintro ⟨q, hq, hqw, rfl⟩
      rw [opcodeRow_unique hr hq hw hqw]

@[simp] theorem instrOf_mnemonic (m : Mnemonic) (w : InstrWord) : (instrOf m w).mnemonic = m := by
  cases m <;> rfl

/-- Settles O3: the row a word decodes by is the one row of its mnemonic. -/
theorem decodeSelectsTheMatchingRow : Obligations.DecodeSelectsTheMatchingRow := by
  intro row hrow w
  constructor
  · rintro ⟨i, hi, hm⟩
    obtain ⟨r, hr, hw, rfl⟩ := decodeWord_eq_ok_iff.1 hi
    rw [instrOf_mnemonic] at hm
    exact opcodeRow_eq_of_mnemonic_eq hr hrow hm ▸ hw
  · intro hw
    exact ⟨instrOf row.mnemonic w, decodeWord_eq_ok_iff.2 ⟨row, hrow, hw, rfl⟩,
      instrOf_mnemonic row.mnemonic w⟩

/-! ### From operands to a word and back -/

/-- A register field is read back when its 5 bits are those of the register's number (R58). -/
theorem toFin_eq_of_eq_regField {b : BitVec 5} {r : Reg} (h : b = regField r) : b.toFin = r :=
  congrArg BitVec.toFin h

/-- The D-form layout keeps its three operand fields (R51). -/
@[simp] theorem fields_encodeD (opcd : BitVec 6) (rt ra : Reg) (d : BitVec 16) :
    fieldRT (encodeD opcd rt ra d) = rt ∧ fieldRA (encodeD opcd rt ra d) = ra ∧
      fieldD (encodeD opcd rt ra d) = d := by
  refine ⟨toFin_eq_of_eq_regField ?_, toFin_eq_of_eq_regField ?_, ?_⟩ <;>
    grind [encodeD, fieldD]

/-- The DS-form layout keeps its three operand fields (R52). -/
@[simp] theorem fields_encodeDS (opcd : BitVec 6) (rt ra : Reg) (ds : BitVec 14) (xo : BitVec 2) :
    fieldRT (encodeDS opcd rt ra ds xo) = rt ∧ fieldRA (encodeDS opcd rt ra ds xo) = ra ∧
      fieldDS (encodeDS opcd rt ra ds xo) = ds := by
  refine ⟨toFin_eq_of_eq_regField ?_, toFin_eq_of_eq_regField ?_, ?_⟩ <;>
    grind [encodeDS, fieldDS]

/-- The DQ-form layout keeps its three operand fields (R53). -/
@[simp] theorem fields_encodeDQ (opcd : BitVec 6) (rtp ra : Reg) (dq : BitVec 12) :
    fieldRT (encodeDQ opcd rtp ra dq) = rtp ∧ fieldRA (encodeDQ opcd rtp ra dq) = ra ∧
      fieldDQ (encodeDQ opcd rtp ra dq) = dq := by
  refine ⟨toFin_eq_of_eq_regField ?_, toFin_eq_of_eq_regField ?_, ?_⟩ <;>
    grind [encodeDQ, fieldDQ]

/-- The X-form layout keeps its three operand fields (R54). -/
@[simp] theorem fields_encodeX (opcd : BitVec 6) (rt ra rb : Reg) (xo : BitVec 10) :
    fieldRT (encodeX opcd rt ra rb xo) = rt ∧ fieldRA (encodeX opcd rt ra rb xo) = ra ∧
      fieldRB (encodeX opcd rt ra rb xo) = rb := by
  refine ⟨toFin_eq_of_eq_regField ?_, toFin_eq_of_eq_regField ?_, toFin_eq_of_eq_regField ?_⟩ <;>
    grind [encodeX]

/-- The fields of an encoded instruction are its operands. -/
theorem instrOf_encode (i : Instr) : instrOf i.mnemonic (encode i) = i := by
  cases i <;> simp [Instr.mnemonic, instrOf, encode]

/-- The word of every instruction matches the row of its mnemonic (R59). -/
theorem encode_matches_row (i : Instr) : Laws.EncodingCarriesRow.Statement i :=
  open Laws in
  match i with
  | .lbz .. => EncodingCarriesRow.lbz ..
  | .lbzx .. => EncodingCarriesRow.lbzx ..
  | .lbzu .. => EncodingCarriesRow.lbzu ..
  | .lbzux .. => EncodingCarriesRow.lbzux ..
  | .lhz .. => EncodingCarriesRow.lhz ..
  | .lhzx .. => EncodingCarriesRow.lhzx ..
  | .lhzu .. => EncodingCarriesRow.lhzu ..
  | .lhzux .. => EncodingCarriesRow.lhzux ..
  | .lha .. => EncodingCarriesRow.lha ..
  | .lhax .. => EncodingCarriesRow.lhax ..
  | .lhau .. => EncodingCarriesRow.lhau ..
  | .lhaux .. => EncodingCarriesRow.lhaux ..
  | .lwz .. => EncodingCarriesRow.lwz ..
  | .lwzx .. => EncodingCarriesRow.lwzx ..
  | .lwzu .. => EncodingCarriesRow.lwzu ..
  | .lwzux .. => EncodingCarriesRow.lwzux ..
  | .lwa .. => EncodingCarriesRow.lwa ..
  | .lwax .. => EncodingCarriesRow.lwax ..
  | .lwaux .. => EncodingCarriesRow.lwaux ..
  | .ld .. => EncodingCarriesRow.ld ..
  | .ldx .. => EncodingCarriesRow.ldx ..
  | .ldu .. => EncodingCarriesRow.ldu ..
  | .ldux .. => EncodingCarriesRow.ldux ..
  | .lq .. => EncodingCarriesRow.lq ..
  | .lhbrx .. => EncodingCarriesRow.lhbrx ..
  | .lwbrx .. => EncodingCarriesRow.lwbrx ..
  | .ldbrx .. => EncodingCarriesRow.ldbrx ..
  | .lmw .. => EncodingCarriesRow.lmw ..

/-- Settles O1: the word matches the row of its mnemonic, and its fields are the operands. -/
theorem decodeOfEncodeIsIdentity : Obligations.DecodeOfEncodeIsIdentity := by
  intro i
  obtain ⟨r, hr, hm, hw⟩ := encode_matches_row i
  exact decodeWord_eq_ok_iff.2 ⟨r, hr, hw, hm ▸ instrOf_encode i⟩

/-! ### From a word to its fields and back -/

/-- Where the mask is all ones, a word that matches has the bits of the pattern. -/
theorem extractLsb'_of_masked {w mask pattern : InstrWord} {k n : Nat} {v : BitVec n}
    (h : w &&& mask = pattern) (hmask : mask.extractLsb' k n = BitVec.allOnes n)
    (hpattern : pattern.extractLsb' k n = v) : v = w.extractLsb' k n := by
  rw [← hpattern, ← h, BitVec.extractLsb'_and, hmask, BitVec.and_allOnes]

/-- A word with the fixed bits of a D-form row is laid out from its fields (R51). -/
theorem encodeD_fields (opcd : BitVec 6) {w : InstrWord} (h : w &&& 0xFC000000 = opcd ++ 0#26) :
    encodeD opcd (fieldRT w) (fieldRA w) (fieldD w) = w := by
  have hopcd : opcd = w.extractLsb' 26 6 := extractLsb'_of_masked h (by decide) (by grind)
  calc encodeD opcd (fieldRT w) (fieldRA w) (fieldD w)
      = w.extractLsb' 26 6 ++ w.extractLsb' 21 5 ++ w.extractLsb' 16 5 ++ w.extractLsb' 0 16 := by
        rw [hopcd]; rfl
    _ = w := by grind

/-- A word with the fixed bits of a DS-form row is laid out from its fields (R52). -/
theorem encodeDS_fields (opcd : BitVec 6) (xo : BitVec 2) {w : InstrWord}
    (h : w &&& 0xFC000003 = opcd ++ 0#24 ++ xo) :
    encodeDS opcd (fieldRT w) (fieldRA w) (fieldDS w) xo = w := by
  have hopcd : opcd = w.extractLsb' 26 6 := extractLsb'_of_masked h (by decide) (by grind)
  have hxo : xo = w.extractLsb' 0 2 := extractLsb'_of_masked h (by decide) (by grind)
  calc encodeDS opcd (fieldRT w) (fieldRA w) (fieldDS w) xo
      = w.extractLsb' 26 6 ++ w.extractLsb' 21 5 ++ w.extractLsb' 16 5 ++ w.extractLsb' 2 14 ++
          w.extractLsb' 0 2 := by
        rw [hopcd, hxo]; rfl
    _ = w := by grind

/-- A word with the fixed bits of a DQ-form row is laid out from its fields (R53, R61). -/
theorem encodeDQ_fields (opcd : BitVec 6) {w : InstrWord} (h : w &&& 0xFC00000F = opcd ++ 0#26) :
    encodeDQ opcd (fieldRT w) (fieldRA w) (fieldDQ w) = w := by
  have hopcd : opcd = w.extractLsb' 26 6 := extractLsb'_of_masked h (by decide) (by grind)
  have hzero : 0#4 = w.extractLsb' 0 4 := extractLsb'_of_masked h (by decide) (by grind)
  calc encodeDQ opcd (fieldRT w) (fieldRA w) (fieldDQ w)
      = w.extractLsb' 26 6 ++ w.extractLsb' 21 5 ++ w.extractLsb' 16 5 ++ w.extractLsb' 4 12 ++
          w.extractLsb' 0 4 := by
        rw [hopcd, ← hzero]; rfl
    _ = w := by grind

/-- A word with the fixed bits of an X-form row is laid out from its fields (R54, R61). -/
theorem encodeX_fields (opcd : BitVec 6) (xo : BitVec 10) {w : InstrWord}
    (h : w &&& 0xFC0007FF = opcd ++ 0#15 ++ xo ++ 0#1) :
    encodeX opcd (fieldRT w) (fieldRA w) (fieldRB w) xo = w := by
  have hopcd : opcd = w.extractLsb' 26 6 := extractLsb'_of_masked h (by decide) (by grind)
  have hxo : xo = w.extractLsb' 1 10 := extractLsb'_of_masked h (by decide) (by grind)
  have hzero : 0#1 = w.extractLsb' 0 1 := extractLsb'_of_masked h (by decide) (by grind)
  calc encodeX opcd (fieldRT w) (fieldRA w) (fieldRB w) xo
      = w.extractLsb' 26 6 ++ w.extractLsb' 21 5 ++ w.extractLsb' 16 5 ++ w.extractLsb' 11 5 ++
          w.extractLsb' 1 10 ++ w.extractLsb' 0 1 := by
        rw [hopcd, hxo, ← hzero]; rfl
    _ = w := by grind

/-- A word that matches a row is the word of the instruction of its fields, row by row in the order
of R59: the encoder's OPCD and XO give the row's pattern. -/
theorem encode_instrOf {w : InstrWord} : ∀ r ∈ opcodeTable, w &&& r.mask = r.pattern →
    encode (instrOf r.mnemonic w) = w := by
  simp only [opcodeTable, List.forall_mem_cons]
  exact ⟨encodeD_fields 32, encodeD_fields 33, encodeD_fields 34, encodeD_fields 35,
    encodeD_fields 40, encodeD_fields 41, encodeD_fields 42, encodeD_fields 43, encodeD_fields 46,
    encodeDQ_fields 56,
    encodeDS_fields 58 0, encodeDS_fields 58 1, encodeDS_fields 58 2,
    encodeX_fields 31 21, encodeX_fields 31 23, encodeX_fields 31 53, encodeX_fields 31 55,
    encodeX_fields 31 87, encodeX_fields 31 119, encodeX_fields 31 279, encodeX_fields 31 311,
    encodeX_fields 31 341, encodeX_fields 31 343, encodeX_fields 31 373, encodeX_fields 31 375,
    encodeX_fields 31 532, encodeX_fields 31 534, encodeX_fields 31 790, by simp⟩

/-- Settles O2: the word matches the row it decodes by, and so is laid out from its fields. -/
theorem encodeOfDecodeIsIdentity : Obligations.EncodeOfDecodeIsIdentity := by
  intro w i h
  obtain ⟨r, hr, hw, rfl⟩ := decodeWord_eq_ok_iff.1 h
  exact encode_instrOf r hr hw

end Sys2Proof
end

section
/-! SUPPORT. The DS and DQ fields of a word with their zero bits (R56, R57); and with them the
statement about displacements. -/

namespace Sys2Proof.Machine

/-- `DS||0b00` is the low half of the word with its low 2 bits cleared (R56). -/
theorem fieldDS_append_zero (w : InstrWord) :
    fieldDS w ++ 0#2 = w.extractLsb' 0 16 &&& 0xFFFC#16 := by
  ext i hi
  simp only [fieldDS, BitVec.getElem_and, BitVec.getElem_append]
  interval_cases i <;> simp

/-- `DQ||0b0000` is the low half of the word with its low 4 bits cleared (R57). -/
theorem fieldDQ_append_zero (w : InstrWord) :
    fieldDQ w ++ 0#4 = w.extractLsb' 0 16 &&& 0xFFF0#16 := by
  ext i hi
  simp only [fieldDQ, BitVec.getElem_and, BitVec.getElem_append]
  interval_cases i <;> simp

/-- Settles O6: each displacement as a number, and the DS and DQ fields as bits of the word. -/
theorem displacementsAreSignedAndScaled : Obligations.DisplacementsAreSignedAndScaled :=
  ⟨dispD_toInt, fun ds => ⟨rfl, dispDS_toInt ds⟩, fun dq => ⟨rfl, dispDQ_toInt dq⟩,
    fieldDS_append_zero, fieldDQ_append_zero⟩

end Sys2Proof.Machine
end

section
/-! SUPPORT. What is known of an instruction that completed (R70): it did not raise, it wrote the state
that its readable access gives it, and it left all but its Writes column (R22) alone; and with it the
statement that the old content of a target makes no difference (R83). -/

namespace Sys2Proof.Machine

/-- A state that holds the record of a raise is none that completed. -/
theorem not_completed_of_raise {r : Result} {s t : State} {f : Fault}
    (hr : r = .next { s with fault := some f }) (h : r = .next t) : t.fault ≠ none := by
  obtain rfl := Host.Outcome.next.inj (hr.symm.trans h)
  exact Option.some_ne_none f

section
variable {s t : State} {m : Mnemonic} {n : Nat} {fill : BitVec (8 * n) → Word} {rt ra : Reg}
  {ea : Word}

/-- A load without update that completed has written RT and advanced. -/
theorem loadInto_of_completed (h : loadInto m n fill rt ea s = .next t) (ht : t.fault = none) :
    t = (s.setGpr rt (fill (storageValue s.le s.mem ea.toNat n))).advance := by
  obtain ⟨-, e⟩ | ⟨f, -, e⟩ | ⟨-, e⟩ := loadInto_cases m n fill rt ea s
  · exact Host.Outcome.next.inj (h.symm.trans e)
  · exact absurd ht (not_completed_of_raise e h)
  · cases h.symm.trans e

/-- A load with update that completed has a valid form, has written RT and then RA, and advanced. -/
theorem loadIntoUpdate_of_completed (h : loadIntoUpdate m n fill rt ra ea s = .next t)
    (ht : t.fault = none) :
    ra ≠ rt ∧
      t = ((s.setGpr rt (fill (storageValue s.le s.mem ea.toNat n))).setGpr ra ea).advance := by
  obtain ⟨-, e⟩ | ⟨-, hne, ⟨-, e⟩ | ⟨f, -, e⟩ | ⟨-, e⟩⟩ :=
    loadIntoUpdate_cases m n fill rt ra ea s
  · exact absurd ht (not_completed_of_raise e h)
  · exact ⟨hne, Host.Outcome.next.inj (h.symm.trans e)⟩
  · exact absurd ht (not_completed_of_raise e h)
  · cases h.symm.trans e

end

/-- An `lmw` that completed has written the registers from RT up with its words, zero-extended, and
advanced. -/
theorem execLmw_of_completed {s t : State} {rt ra : Reg} {d : BitVec 16}
    (h : execLmw rt ra d s = .next t) (ht : t.fault = none) :
    t = (s.setGprsFrom rt.val (((List.range (32 - rt.val)).map fun k =>
      storageValue s.le s.mem (eaD ra d s + BitVec.ofNat 64 (4 * k)).toNat 4).map zext)).advance := by
  obtain ⟨-, e⟩ | ⟨-, -, e⟩ | ⟨-, -, ⟨-, e⟩ | ⟨k, -, -, ⟨f, -, e⟩ | ⟨-, e⟩⟩⟩ :=
    execLmw_cases rt ra d s
  · exact absurd ht (not_completed_of_raise e h)
  · exact absurd ht (not_completed_of_raise e h)
  · exact Host.Outcome.next.inj (h.symm.trans e)
  · exact absurd ht (not_completed_of_raise e h)
  · cases h.symm.trans e

/-- The frame of an instruction that completed. -/
theorem exec_frame_of_completed {i : Instr} {s t : State} (h : exec i s = .next t)
    (ht : t.fault = none) : t.mem = s.mem ∧ OnlyChanged s t i.writes := by
  obtain hdone | ⟨f, -, hraise⟩ := execCompletesOrRaisesAndNothingElse i s t h
  · exact hdone
  · exact absurd ht (hraise ▸ Option.some_ne_none f)

/-- Settles O37: the two runs agree on the registers read, so they write the same values; the register
that differed is one of those written, and no other register is touched by either run. -/
theorem oldTargetContentMakesNoDifference : Obligations.OldTargetContentMakesNoDifference := by
  intro i s t r v _ ht h hwrites hreads
  have hagree : ∀ g ∈ i.reads, (s.setGpr r v).gpr g = s.gpr g := fun g hg =>
    State.gpr_setGpr_ne s v (ne_of_mem_of_not_mem hg hreads)
  have hview : SameStorageView s (s.setGpr r v) := ⟨rfl, rfl, rfl, rfl⟩
  obtain ⟨t', h', ht', hsame⟩ := exec_completesAlike hview i hagree t h ht
  obtain ⟨hmem, hframe⟩ := exec_frame_of_completed h ht
  obtain ⟨hmem', hframe'⟩ := exec_frame_of_completed h' ht'
  have hgpr : ∀ g, t'.gpr g = t.gpr g := by
    intro g
    by_cases hg : g ∈ i.writes
    · exact hsame g hg
    · rw [hframe.gpr g hg, hframe'.gpr g hg]
      exact State.gpr_setGpr_ne s v (ne_of_mem_of_not_mem hwrites hg).symm
  have heq : t' = t := State.ext_gpr hgpr (hframe'.pc.trans hframe.pc.symm)
    (hframe'.le.trans hframe.le.symm) (hmem'.trans hmem.symm) (ht'.trans ht.symm)
    (hframe'.params.trans hframe.params.symm)
  rw [h', heq]

end Sys2Proof.Machine
end

section
/-! SUPPORT. How a load fills its target register (R76 to R78), by mnemonic; and with it the statements
about the bits of RT after the And-Zero and the Algebraic loads. -/

namespace Sys2Proof.Machine

/-! ### What each mnemonic makes of its operand -/

/-- What a load with one target makes of its operand: sign extension (R77), zero extension of the
reversed value (R78), or zero extension (R76). `FillsTarget` ties it to the model; of `lq`, which fills a
pair, it says nothing. -/
def operandFill (m : Mnemonic) {n : Nat} (v : BitVec (8 * n)) : Word :=
  match m with
  | .lha | .lhax | .lhau | .lhaux | .lwa | .lwax | .lwaux => sext v
  | .lhbrx | .lwbrx | .ldbrx => zext (brev n v)
  | _ => zext v

/-- Whenever the instruction completes, the first register it writes, RT, holds what its mnemonic makes
of the operand at its effective address. -/
def FillsTarget (i : Instr) : Prop :=
  ∀ (s t : State) (rt : Reg), i.writes.head? = some rt → exec i s = .next t → t.fault = none →
    t.gpr rt = operandFill i.mnemonic (storageValue s.le s.mem (i.ea s).toNat i.mnemonic.bytes)

theorem FillsTarget.of_loadInto {i : Instr} {rt : Reg} (hwrites : i.writes.head? = some rt)
    (hexec : ∀ s, exec i s =
      loadInto i.mnemonic i.mnemonic.bytes (operandFill i.mnemonic) rt (i.ea s) s) :
    FillsTarget i := by
  intro s t rt' hhead h ht
  obtain rfl : rt = rt' := Option.some.inj (hwrites.symm.trans hhead)
  rw [loadInto_of_completed ((hexec s).symm.trans h) ht]
  simp

theorem FillsTarget.of_loadIntoUpdate {i : Instr} {rt ra : Reg}
    (hwrites : i.writes.head? = some rt)
    (hexec : ∀ s, exec i s =
      loadIntoUpdate i.mnemonic i.mnemonic.bytes (operandFill i.mnemonic) rt ra (i.ea s) s) :
    FillsTarget i := by
  intro s t rt' hhead h ht
  obtain rfl : rt = rt' := Option.some.inj (hwrites.symm.trans hhead)
  obtain ⟨hne, rfl⟩ := loadIntoUpdate_of_completed ((hexec s).symm.trans h) ht
  simp [State.gpr_setGpr_ne _ _ hne.symm]

/-- Every load with one target fills it by its mnemonic. -/
theorem fillsTarget (i : Instr) (hlq : i.mnemonic ≠ .lq) (hlmw : i.mnemonic ≠ .lmw) :
    FillsTarget i :=
  match i, hlq, hlmw with
  | .lbz .., _, _ | .lbzx .., _, _ | .lhz .., _, _ | .lhzx .., _, _ | .lha .., _, _
  | .lhax .., _, _ | .lwz .., _, _ | .lwzx .., _, _ | .lwa .., _, _ | .lwax .., _, _
  | .ld .., _, _ | .ldx .., _, _ | .lhbrx .., _, _ | .lwbrx .., _, _ | .ldbrx .., _, _ =>
    .of_loadInto rfl fun _ => rfl
  | .lbzu .., _, _ | .lbzux .., _, _ | .lhzu .., _, _ | .lhzux .., _, _ | .lhau .., _, _
  | .lhaux .., _, _ | .lwzu .., _, _ | .lwzux .., _, _ | .lwaux .., _, _ | .ldu .., _, _
  | .ldux .., _, _ => .of_loadIntoUpdate rfl fun _ => rfl
  | .lq .., hlq, _ => absurd rfl hlq
  | .lmw .., _, hlmw => absurd rfl hlmw

/-! ### The bits of an extended operand -/

/-- Zero extension keeps the operand's bits and has 0 above them (R76). -/
theorem getLsbD_zext {n k : Nat} (v : BitVec n) (hk : k < 64) :
    (zext v).getLsbD k = if k < n then v.getLsbD k else false := by
  simp only [zext, BitVec.getLsbD_setWidth, hk, decide_true, Bool.true_and]
  split
  case isTrue => rfl
  case isFalse h => exact BitVec.getLsbD_of_ge v k (not_lt.1 h)

/-- Sign extension keeps the operand's bits and has its most significant bit above them (R77). -/
theorem getLsbD_sext {n k : Nat} (v : BitVec n) (hk : k < 64) :
    (sext v).getLsbD k = if k < n then v.getLsbD k else v.getLsbD (n - 1) := by
  rw [sext, BitVec.getLsbD_signExtend, BitVec.msb_eq_getLsbD_last]
  simp only [hk, decide_true, Bool.true_and]

/-- Settles O26: the operand is sign-extended by every one of the seven mnemonics. -/
theorem algebraicLoadsCopyTheSign : Obligations.AlgebraicLoadsCopyTheSign := by
  intro i s t rt _ ht hm hhead h n v k hk
  have hlq : i.mnemonic ≠ .lq := ne_of_mem_of_not_mem hm (by decide)
  have hlmw : i.mnemonic ≠ .lmw := ne_of_mem_of_not_mem hm (by decide)
  have hfill : operandFill i.mnemonic v = sext v := by
    clear_value v n
    generalize i.mnemonic = m at hm
    fin_cases hm <;> rfl
  rw [fillsTarget i hlq hlmw s t rt hhead h ht, hfill, getLsbD_sext v hk]

/-- The register RT + k of an `lmw` that completed holds word k, zero-extended (R130). -/
theorem execLmw_gpr_of_completed {s t : State} {rt ra r : Reg} {d : BitVec 16}
    (h : execLmw rt ra d s = .next t) (ht : t.fault = none) (hr : rt ≤ r) :
    t.gpr r = zext (storageValue s.le s.mem
      (eaD ra d s + BitVec.ofNat 64 (4 * (r.val - rt.val))).toNat 4) := by
  have hle : rt.val ≤ r.val := hr
  have hlt : r.val - rt.val < 32 - rt.val := by omega
  rw [execLmw_of_completed h ht, State.advance_gpr, State.gpr_setGprsFrom, if_pos]
  · simp [hlt]
  · rw [List.length_map, List.length_map, List.length_range]
    omega

/-- Settles O25: the operand is zero-extended by every one of the sixteen mnemonics, and each word of
`lmw` is. -/
theorem zeroLoadsClearTheUpperBits : Obligations.ZeroLoadsClearTheUpperBits := by
  intro s t _ ht
  constructor
  · intro i rt hm hhead h n k hk
    have hlq : i.mnemonic ≠ .lq := ne_of_mem_of_not_mem hm (by decide)
    have hlmw : i.mnemonic ≠ .lmw := ne_of_mem_of_not_mem hm (by decide)
    have hfill : ∀ v : BitVec (8 * n), operandFill i.mnemonic v = zext v := by
      clear_value n
      generalize i.mnemonic = m at hm
      fin_cases hm <;> exact fun _ => rfl
    rw [fillsTarget i hlq hlmw s t rt hhead h ht, hfill, getLsbD_zext _ hk]
  · intro rt ra d h r hr a k hk
    rw [execLmw_gpr_of_completed h ht hr, getLsbD_zext _ hk]

end Sys2Proof.Machine
end

section
/-! SUPPORT. The reversal of the value of a storage operand is its value in the other mode (R37, R14);
and with it the statement about the byte-reverse loads. -/

namespace Sys2Proof.Machine

/-- Byte `k` of the little-endian reading of some bytes is the byte number `k`. -/
theorem littleValue_div_mod (bs : List Byte) (k : Nat) (hk : k < bs.length) :
    littleValue bs / 2 ^ (8 * k) % 256 = bs[k].toNat := by
  induction bs generalizing k with
  | nil => cases hk
  | cons b bs ih =>
    have hb := b.isLt
    cases k with
    | zero =>
      rw [littleValue, Nat.mul_zero, pow_zero, Nat.div_one, List.getElem_cons_zero]
      omega
    | succ k =>
      have hrest : littleValue (b :: bs) / 2 ^ 8 = littleValue bs := by
        rw [littleValue]; omega
      rw [Nat.mul_succ, Nat.add_comm, pow_add, ← Nat.div_div_eq_div_mul, hrest]
      exact ih k (Nat.lt_of_succ_lt_succ hk)

/-- The bytes of a little-endian reading, the most significant first, are the bytes read, the last
first. -/
theorem bytesOfValue_littleValue {n : Nat} {bs : List Byte} (hn : bs.length = n) :
    bytesOfValue n (BitVec.ofNat (8 * n) (littleValue bs)) = bs.reverse := by
  refine List.ext_getElem (by simp [bytesOfValue, hn]) fun k _ hk => ?_
  rw [List.length_reverse, hn] at hk
  have hbyte : n - 1 - k < bs.length := by omega
  have hfits : littleValue bs % 2 ^ (8 * n) = littleValue bs :=
    Nat.mod_eq_of_lt (hn ▸ littleValue_lt bs)
  apply BitVec.eq_of_toNat_eq
  simp [bytesOfValue, Nat.shiftRight_eq_div_pow, hfits, littleValue_div_mod bs _ hbyte, hn]

/-- Reversing the value of an operand gives its value in the other mode. -/
theorem brev_storageValue (le : Bool) (m : Memory) (a n : Nat) :
    brev n (storageValue le m a n) = storageValue (!le) m a n := by
  have hlen : (m.bytesAt a n).length = n := Memory.length_bytesAt m a n
  cases le with
  | false =>
    simp [brev, storageValue, bigValue_eq_littleValue_reverse,
      bytesOfValue_littleValue (List.length_reverse.trans hlen)]
  | true =>
    simp [brev, storageValue, bigValue_eq_littleValue_reverse, bytesOfValue_littleValue hlen]

/-- A load that reverses its operand, and one of the same width in the other mode that does not. -/
theorem loadInto_brev_eq_other_mode {m m' : Mnemonic} {n : Nat} {ea : Word} {s : State} (rt : Reg)
    (h : Readable m ea n s) (h' : Readable m' ea n s) :
    ∃ t u, loadInto m n (fun v => zext (brev n v)) rt ea s = .next t ∧
      loadInto m' n zext rt ea { s with le := !s.le } = .next u ∧
      t.gpr rt = (brev n (storageValue s.le s.mem ea.toNat n)).setWidth 64 ∧ t.x = u.x := by
  refine ⟨_, _, loadInto_of_readable _ rt h, loadInto_of_readable zext rt h',
    State.gpr_setGpr_same .., ?_⟩
  rw [brev_storageValue]
  rfl

/-- Settles O27, for each width: the reversed value is the value in the other mode. -/
theorem byteReverseIsThePlainLoadOfTheOtherMode :
    Obligations.ByteReverseIsThePlainLoadOfTheOtherMode := fun _ rt _ _ =>
  ⟨loadInto_brev_eq_other_mode rt, loadInto_brev_eq_other_mode rt, loadInto_brev_eq_other_mode rt⟩

end Sys2Proof.Machine
end

section
/-! SUPPORT. Two runs of one instruction from states that differ in the contents of storage alone end in
the same way: no test looks at a byte (R80). -/

namespace Sys2Proof.Machine

/-- Two accesses stop for the same reason, or both give a value. -/
def StopsAlike {α : Type} (v v' : Except Stop α) : Prop :=
  (∃ e, v = .error e ∧ v' = .error e) ∨ ∃ a a', v = .ok a ∧ v' = .ok a'

/-- The runs from `s` and `s'` that answer `r` and `r'` raise the same fault, or get the same refusal,
or both complete. -/
def EndsAlike (s s' : State) (r r' : Result) : Prop :=
  (∃ f, r = .next { s with fault := some f } ∧ r' = .next { s' with fault := some f }) ∨
  (∃ e, r = .refused e ∧ r' = .refused e) ∨
  ∃ t t', r = .next t ∧ r' = .next t' ∧ t.fault = s.fault ∧ t'.fault = s'.fault

/-- Where two accesses stop alike and what follows a value completes, the runs end alike (R70). -/
theorem StopsAlike.endsAlike_withValue {α : Type} {v v' : Except Stop α} {s s' : State}
    {k k' : α → State} (h : StopsAlike v v') (hk : ∀ a, (k a).fault = s.fault)
    (hk' : ∀ a, (k' a).fault = s'.fault) :
    EndsAlike s s' (withValue v s fun a => .next (k a)) (withValue v' s' fun a => .next (k' a)) := by
  obtain ⟨e, rfl, rfl⟩ | ⟨a, a', rfl, rfl⟩ := h
  · cases e with
    | raise f => exact .inl ⟨f, rfl, rfl⟩
    | refuse r => exact .inr (.inl ⟨r, rfl, rfl⟩)
  · exact .inr (.inr ⟨_, _, rfl, rfl, hk a, hk' a'⟩)

/-- Both runs raise the same fault. -/
theorem EndsAlike.of_raise (s s' : State) (f : Fault) :
    EndsAlike s s' (raise f s) (raise f s') :=
  .inl ⟨f, rfl, rfl⟩

section
variable (s : State) (mem : Memory)

/-- The tests of an access do not look at storage (R36). -/
theorem memRead_stopsAlike (m : Mnemonic) (a : Word) (n : Nat) :
    StopsAlike (memRead m a n s) (memRead m a n { s with mem := mem }) := by
  simp only [memRead]
  split_ifs
  · exact .inl ⟨_, rfl, rfl⟩
  · exact .inl ⟨_, rfl, rfl⟩
  · exact .inl ⟨_, rfl, rfl⟩
  · exact .inr ⟨_, _, rfl, rfl⟩

theorem readWords_stopsAlike (m : Mnemonic) (a : Word) (count : Nat) :
    StopsAlike (readWords m a s count) (readWords m a { s with mem := mem } count) := by
  induction count generalizing a with
  | zero => exact .inr ⟨_, _, rfl, rfl⟩
  | succ count ih =>
    obtain ⟨e, h, h'⟩ | ⟨v, v', h, h'⟩ := memRead_stopsAlike s mem m a 4
    · exact .inl ⟨e, by rw [readWords, h], by rw [readWords, h']⟩
    · obtain ⟨e, hs, hs'⟩ | ⟨vs, vs', hs, hs'⟩ := ih (a + 4)
      · exact .inl ⟨e, by simp only [readWords, h, hs], by simp only [readWords, h', hs']⟩
      · exact .inr ⟨v :: vs, v' :: vs', by simp only [readWords, h, hs],
          by simp only [readWords, h', hs']⟩

theorem loadInto_endsAlike (m : Mnemonic) (n : Nat) (fill : BitVec (8 * n) → Word) (rt : Reg)
    (ea : Word) :
    EndsAlike s { s with mem := mem } (loadInto m n fill rt ea s)
      (loadInto m n fill rt ea { s with mem := mem }) :=
  (memRead_stopsAlike s mem m ea n).endsAlike_withValue (fun _ => rfl) fun _ => rfl

theorem loadIntoUpdate_endsAlike (m : Mnemonic) (n : Nat) (fill : BitVec (8 * n) → Word)
    (rt ra : Reg) (ea : Word) :
    EndsAlike s { s with mem := mem } (loadIntoUpdate m n fill rt ra ea s)
      (loadIntoUpdate m n fill rt ra ea { s with mem := mem }) := by
  unfold loadIntoUpdate
  split
  · exact .of_raise ..
  · exact (memRead_stopsAlike s mem m ea n).endsAlike_withValue (fun _ => rfl) fun _ => rfl

theorem execLq_endsAlike (rtp ra : Reg) (dq : BitVec 12) :
    EndsAlike s { s with mem := mem } (execLq rtp ra dq s)
      (execLq rtp ra dq { s with mem := mem }) := by
  unfold execLq
  split
  · exact .of_raise ..
  · split
    · exact .of_raise ..
    · exact (memRead_stopsAlike s mem .lq (eaDQ ra dq s) 16).endsAlike_withValue (fun _ => rfl)
        fun _ => rfl

theorem execLmw_endsAlike (rt ra : Reg) (d : BitVec 16) :
    EndsAlike s { s with mem := mem } (execLmw rt ra d s)
      (execLmw rt ra d { s with mem := mem }) := by
  unfold execLmw
  dsimp only
  split
  · exact .of_raise ..
  · split
    · exact .of_raise ..
    · exact (readWords_stopsAlike s mem .lmw (eaD ra d s) (32 - rt.val)).endsAlike_withValue
        (fun _ => by simp) fun _ => by simp

/-- Every instruction ends alike over any two contents of storage. -/
theorem exec_endsAlike (i : Instr) :
    EndsAlike s { s with mem := mem } (exec i s) (exec i { s with mem := mem }) := by
  have hea : i.ea { s with mem := mem } = i.ea s := ea_congr i fun _ _ => rfl
  cases loadShape i with
  | load fill rt hexec _ => rw [hexec, hexec, hea]; exact loadInto_endsAlike s mem ..
  | update fill rt ra hexec _ => rw [hexec, hexec, hea]; exact loadIntoUpdate_endsAlike s mem ..
  | quad rtp ra dq => exact execLq_endsAlike s mem rtp ra dq
  | multiple rt ra d => exact execLmw_endsAlike s mem rt ra d

end

/-- Settles O39: from a state without a fault the three ways to end exclude each other, and the two runs
take the same one. -/
theorem faultsDoNotDependOnTheLoadedValue : Obligations.FaultsDoNotDependOnTheLoadedValue := by
  intro i s mem hs
  obtain ⟨f, h, h'⟩ | ⟨e, h, h'⟩ | ⟨t, t', h, h', ht, ht'⟩ := exec_endsAlike s mem i
  · refine ⟨fun g hg => ?_, fun e he => ?_, fun t hu hnone => ?_⟩
    · have hfg : some f = some g :=
        congrArg State.fault (Host.Outcome.next.inj (h.symm.trans hg))
      rw [h', hfg]
    · cases h.symm.trans he
    · exact absurd hnone (not_completed_of_raise h hu)
  · refine ⟨fun g hg => ?_, fun e' he => ?_, fun t hu _ => ?_⟩
    · cases h.symm.trans hg
    · rwa [Host.Outcome.refused.inj (he.symm.trans h)]
    · cases h.symm.trans hu
  · refine ⟨fun g hg => ?_, fun e he => ?_, fun _ _ _ => ⟨t', h', ht'.trans hs⟩⟩
    · exact absurd (ht.trans hs) (not_completed_of_raise hg h)
    · cases h.symm.trans he

end Sys2Proof.Machine
end

section
/-! SUPPORT. What a load whose access is readable leaves behind (R70, R75): its result, the updated base
and the frame, for every width; and with them the statements about the byte loads. -/

namespace Sys2Proof.Machine

/-! ### The frame of a register write and the advance -/

theorem OnlyChanged.of_setGpr (s : State) (r : Reg) (v : Word) :
    OnlyChanged s (s.setGpr r v).advance [r] where
  gpr _ hg := State.gpr_setGpr_ne s v (List.ne_of_not_mem_cons hg)
  pc := rfl
  le := rfl
  mem _ := rfl
  fault := rfl
  params := rfl

theorem OnlyChanged.of_setGpr_setGpr (s : State) (r r' : Reg) (v v' : Word) :
    OnlyChanged s ((s.setGpr r v).setGpr r' v').advance [r, r'] where
  gpr g hg := by
    obtain ⟨hr, hr'⟩ : g ≠ r ∧ g ≠ r' := by simpa using hg
    rw [State.advance_gpr, State.gpr_setGpr_ne _ _ hr', State.gpr_setGpr_ne _ _ hr]
  pc := rfl
  le := rfl
  mem _ := rfl
  fault := rfl
  params := rfl

/-! ### Loads of every width -/

section
variable {m : Mnemonic} {n : Nat} {ea : Word} {s : State}

/-- A load without update whose access is readable completes: RT holds the filled operand, and nothing
else has changed. -/
theorem loadInto_completes (fill : BitVec (8 * n) → Word) (rt : Reg) (h : Readable m ea n s) :
    ∃ t, loadInto m n fill rt ea s = .next t ∧
      t.gpr rt = fill (storageValue s.le s.mem ea.toNat n) ∧ OnlyChanged s t [rt] :=
  ⟨_, loadInto_of_readable fill rt h, State.gpr_setGpr_same .., .of_setGpr ..⟩

/-- A load with update, in a valid form and with a readable access, completes: RT holds the filled
operand, RA the effective address, and nothing else has changed. RA is written last and is not RT, so
RT keeps the operand. -/
theorem loadIntoUpdate_completes (fill : BitVec (8 * n) → Word) {rt ra : Reg} (h0 : ra ≠ 0)
    (hne : ra ≠ rt) (h : Readable m ea n s) :
    ∃ t, loadIntoUpdate m n fill rt ra ea s = .next t ∧
      t.gpr rt = fill (storageValue s.le s.mem ea.toNat n) ∧ t.gpr ra = ea ∧
      OnlyChanged s t [rt, ra] := by
  refine ⟨_, loadIntoUpdate_of_readable fill h0 hne h, ?_, State.gpr_setGpr_same ..,
    .of_setGpr_setGpr ..⟩
  rw [State.advance_gpr, State.gpr_setGpr_ne _ _ hne.symm, State.gpr_setGpr_same]

end

/-! ### An operand of one byte -/

/-- The value of an operand of one byte is the byte, in both modes (R37). -/
theorem storageValue_byte (le : Bool) (m : Memory) (a : Nat) : storageValue le m a 1 = m.read a := by
  apply BitVec.eq_of_toNat_eq
  cases le with
  | false => rw [storageValue_big_toNat]; simp [Memory.bytesAt, bigValue]
  | true => rw [storageValue_little_toNat]; simp [Memory.bytesAt, littleValue]

/-- Zero extension to a register keeps the number (R76). -/
theorem zext_toNat {n : Nat} (v : BitVec n) (hn : n ≤ 64) : (zext v).toNat = v.toNat :=
  BitVec.toNat_setWidth_of_le hn

/-- What a byte load puts in RT is, as a number, the byte at its address (R100). -/
theorem zext_storageValue_byte_toNat (le : Bool) (m : Memory) (a : Nat) :
    (zext (storageValue le m a 1)).toNat = (m.read a).toNat := by
  rw [zext_toNat _ (by decide), storageValue_byte]

/-! ### The byte loads -/

section
variable {m : Mnemonic} {ea : Word} {s : State}

/-- A zero-extending byte load without update (R100, R101). -/
theorem loadInto_byte_completes (rt : Reg) (h : Readable m ea 1 s) :
    ∃ t, loadInto m 1 zext rt ea s = .next t ∧
      (t.gpr rt).toNat = (s.mem.read ea.toNat).toNat ∧ OnlyChanged s t [rt] := by
  obtain ⟨t, ht, hrt, hframe⟩ := loadInto_completes zext rt h
  exact ⟨t, ht, by rw [hrt, zext_storageValue_byte_toNat], hframe⟩

/-- A zero-extending byte load with update, in a valid form (R102, R103). -/
theorem loadIntoUpdate_byte_completes {rt ra : Reg} (h0 : ra ≠ 0) (hne : ra ≠ rt)
    (h : Readable m ea 1 s) :
    ∃ t, loadIntoUpdate m 1 zext rt ra ea s = .next t ∧
      (t.gpr rt).toNat = (s.mem.read ea.toNat).toNat ∧ t.gpr ra = ea ∧
      OnlyChanged s t [rt, ra] := by
  obtain ⟨t, ht, hrt, hra, hframe⟩ := loadIntoUpdate_completes zext h0 hne h
  exact ⟨t, ht, by rw [hrt, zext_storageValue_byte_toNat], hra, hframe⟩

end

/-- Settles O10: `lbz` and `lbzx` are the byte load at their effective addresses (R71, R74). -/
theorem byteLoadsFillRTWithTheByte : Obligations.ByteLoadsFillRTWithTheByte :=
  fun _ rt _ _ _ => ⟨loadInto_byte_completes rt, loadInto_byte_completes rt⟩

/-- Settles O11: `lbzu` and `lbzux` are the byte load with update at their effective addresses (R75). -/
theorem byteUpdateLoadsFillRTAndRA : Obligations.ByteUpdateLoadsFillRTAndRA :=
  fun _ _ _ _ _ h0 hne =>
    ⟨loadIntoUpdate_byte_completes h0 hne, loadIntoUpdate_byte_completes h0 hne⟩

end Sys2Proof.Machine
end

section
/-! SUPPORT. The value of a storage operand as the sum of R37, and the target of a load as the number that
zero or sign extension makes of it (R76, R77), for every width; and with them the statements about the
halfword loads. -/

namespace Sys2Proof.Machine

/-! ### The value of an operand is the sum of its bytes (R37) -/

/-- The last byte is the most significant one in Little-Endian mode. -/
theorem littleValue_bytesAt (m : Memory) (a n : Nat) :
    littleValue (m.bytesAt a n) = littleSum m a n := by
  induction n with
  | zero => rfl
  | succ n ih =>
    have hlast : littleValue (m.bytesAt (a + n) 1) = (m.read (a + n)).toNat := by
      simp [Memory.bytesAt, littleValue]
    rw [Memory.bytesAt_add, littleValue_append, Memory.length_bytesAt, hlast, ih, Nat.add_comm,
      littleSum, littleSum, Finset.sum_range_succ]

/-- The first byte is the most significant one in Big-Endian mode. -/
theorem bigValue_bytesAt (m : Memory) (a n : Nat) :
    bigValue (m.bytesAt a n) = bigSum m a n := by
  induction n generalizing a with
  | zero => rfl
  | succ n ih =>
    have hfirst : bigValue (m.bytesAt a 1) = (m.read a).toNat := by
      simp [Memory.bytesAt, bigValue]
    calc bigValue (m.bytesAt a (n + 1))
        = (m.read a).toNat * 2 ^ (8 * n) + bigSum m (a + 1) n := by
          rw [Nat.add_comm n 1, Memory.bytesAt_add, bigValue_append, Memory.length_bytesAt, hfirst,
            ih]
      _ = bigSum m a (n + 1) := by
          rw [bigSum, bigSum, Finset.sum_range_succ', Nat.add_comm]
          simp [Nat.sub_sub, Nat.add_assoc, Nat.add_comm 1]

/-- The value of an operand, in either mode, is the sum of its bytes with the weights of the mode. -/
theorem storageValue_toNat (le : Bool) (m : Memory) (a n : Nat) :
    (storageValue le m a n).toNat = modeSum le m a n := by
  cases le with
  | false => exact (storageValue_big_toNat m a n).trans (bigValue_bytesAt m a n)
  | true => exact (storageValue_little_toNat m a n).trans (littleValue_bytesAt m a n)

/-! ### The extended operand as a number -/

/-- The signed reading of a bit vector is that of its number (R5). -/
theorem toInt_eq_signedOf {n : Nat} (v : BitVec n) : v.toInt = signedOf n v.toNat := by
  cases n with
  | zero => rw [BitVec.eq_nil v]; rfl
  | succ n =>
    have hsign : 2 * v.toNat < 2 ^ (n + 1) ↔ v.toNat < 2 ^ n := by rw [pow_succ]; omega
    simp [BitVec.toInt_eq_toNat_cond, signedOf, hsign]

/-- Sign extension to a register keeps the signed number (R77). -/
theorem sext_toInt {n : Nat} (v : BitVec n) (hn : n ≤ 64) : (sext v).toInt = v.toInt :=
  BitVec.toInt_signExtend_of_le hn

/-- The sign-extended operand is, as a number, the signed reading of its bits (R5, R77). -/
theorem sext_toInt_eq_signedOf {n : Nat} (v : BitVec n) (hn : n ≤ 64) :
    (sext v).toInt = signedOf n v.toNat := by
  rw [sext_toInt v hn, toInt_eq_signedOf]

/-! ### Loads whose target is read as a number -/

section
variable {α : Type} {reading : Word → α} {val : Nat → α} {m : Mnemonic} {n : Nat}
  {fill : BitVec (8 * n) → Word} {ea : Word} {s : State}

/-- A load without update whose access is readable: where a filled target reads as `val` of the operand,
RT reads as `val` of the sum of R37. -/
theorem loadInto_reading (hfill : ∀ v, reading (fill v) = val v.toNat) (rt : Reg)
    (h : Readable m ea n s) :
    ∃ t, loadInto m n fill rt ea s = .next t ∧
      reading (t.gpr rt) = val (modeSum s.le s.mem ea.toNat n) ∧ OnlyChanged s t [rt] := by
  obtain ⟨t, ht, hrt, hframe⟩ := loadInto_completes fill rt h
  exact ⟨t, ht, by rw [hrt, hfill, storageValue_toNat], hframe⟩

/-- A load with update, in a valid form and with a readable access: RT as without update, and RA holds
the effective address. -/
theorem loadIntoUpdate_reading (hfill : ∀ v, reading (fill v) = val v.toNat) {rt ra : Reg}
    (h0 : ra ≠ 0) (hne : ra ≠ rt) (h : Readable m ea n s) :
    ∃ t, loadIntoUpdate m n fill rt ra ea s = .next t ∧
      reading (t.gpr rt) = val (modeSum s.le s.mem ea.toNat n) ∧ t.gpr ra = ea ∧
      OnlyChanged s t [rt, ra] := by
  obtain ⟨t, ht, hrt, hra, hframe⟩ := loadIntoUpdate_completes fill h0 hne h
  exact ⟨t, ht, by rw [hrt, hfill, storageValue_toNat], hra, hframe⟩

end

/-! ### The halfword loads -/

/-- A zero-extended halfword reads as the halfword. -/
theorem zext_halfword_toNat (v : BitVec (8 * 2)) : (zext v).toNat = id v.toNat :=
  zext_toNat v (by decide)

/-- A sign-extended halfword reads as the halfword taken as signed. -/
theorem sext_halfword_toInt (v : BitVec (8 * 2)) : (sext v).toInt = signedOf 16 v.toNat :=
  sext_toInt_eq_signedOf v (by decide)

/-- Settles O12: `lhz` and `lhzx` are the zero-extending load of two bytes at their effective addresses
(R71, R74). -/
theorem halfwordLoadsZeroExtend : Obligations.HalfwordLoadsZeroExtend :=
  fun _ rt _ _ _ =>
    ⟨loadInto_reading zext_halfword_toNat rt, loadInto_reading zext_halfword_toNat rt⟩

/-- Settles O13: `lhzu` and `lhzux` are the zero-extending load of two bytes with update (R75). -/
theorem halfwordUpdateLoadsZeroExtend : Obligations.HalfwordUpdateLoadsZeroExtend :=
  fun _ _ _ _ _ h0 hne =>
    ⟨loadIntoUpdate_reading zext_halfword_toNat h0 hne,
      loadIntoUpdate_reading zext_halfword_toNat h0 hne⟩

/-- Settles O14: `lha` and `lhax` are the sign-extending load of two bytes at their effective addresses
(R71, R74). -/
theorem halfwordAlgebraicLoadsSignExtend : Obligations.HalfwordAlgebraicLoadsSignExtend :=
  fun _ rt _ _ _ =>
    ⟨loadInto_reading sext_halfword_toInt rt, loadInto_reading sext_halfword_toInt rt⟩

/-- Settles O15: `lhau` and `lhaux` are the sign-extending load of two bytes with update (R75). -/
theorem halfwordAlgebraicUpdateLoadsSignExtend :
    Obligations.HalfwordAlgebraicUpdateLoadsSignExtend :=
  fun _ _ _ _ _ h0 hne =>
    ⟨loadIntoUpdate_reading sext_halfword_toInt h0 hne,
      loadIntoUpdate_reading sext_halfword_toInt h0 hne⟩

end Sys2Proof.Machine
end

section
/-! SUPPORT. The extended word as a number (R76, R77), and the statements about the word loads. -/

namespace Sys2Proof.Machine

/-- A zero-extended word reads as the word. -/
theorem zext_word_toNat (v : BitVec (8 * 4)) : (zext v).toNat = id v.toNat :=
  zext_toNat v (by decide)

/-- A sign-extended word reads as the word taken as signed. -/
theorem sext_word_toInt (v : BitVec (8 * 4)) : (sext v).toInt = signedOf 32 v.toNat :=
  sext_toInt_eq_signedOf v (by decide)

/-- Settles O16: `lwz` and `lwzx` are the zero-extending load of four bytes at their effective addresses
(R71, R74). -/
theorem wordLoadsZeroExtend : Obligations.WordLoadsZeroExtend :=
  fun _ rt _ _ _ =>
    ⟨loadInto_reading zext_word_toNat rt, loadInto_reading zext_word_toNat rt⟩

/-- Settles O17: `lwzu` and `lwzux` are the zero-extending load of four bytes with update (R75). -/
theorem wordUpdateLoadsZeroExtend : Obligations.WordUpdateLoadsZeroExtend :=
  fun _ _ _ _ _ h0 hne =>
    ⟨loadIntoUpdate_reading zext_word_toNat h0 hne,
      loadIntoUpdate_reading zext_word_toNat h0 hne⟩

/-- Settles O18: `lwa` and `lwax` are the sign-extending load of four bytes at their effective addresses;
that of `lwa` has a displacement in the DS form (R72, R74). -/
theorem wordAlgebraicLoadsSignExtend : Obligations.WordAlgebraicLoadsSignExtend :=
  fun _ rt _ _ _ =>
    ⟨loadInto_reading sext_word_toInt rt, loadInto_reading sext_word_toInt rt⟩

/-- Settles O19: `lwaux` is the sign-extending load of four bytes with update (R75). -/
theorem wordAlgebraicUpdateIndexedSignExtends :
    Obligations.WordAlgebraicUpdateIndexedSignExtends :=
  fun _ _ _ _ h0 hne => loadIntoUpdate_reading sext_word_toInt h0 hne

end Sys2Proof.Machine
end

section
/-! SUPPORT. The doubleword in a register as a number (R76), and the statements about the doubleword
loads. -/

namespace Sys2Proof.Machine

/-- A doubleword in a register reads as the doubleword: it fills the register, so all 64 bits count. -/
theorem zext_doubleword_toNat (v : BitVec (8 * 8)) : (zext v).toNat = id v.toNat :=
  congrArg BitVec.toNat (zext_doubleword v)

/-- Settles O20: `ld` and `ldx` are the load of eight bytes at their effective addresses; that of `ld` has
a displacement in the DS form (R72, R74). -/
theorem doublewordLoadsFillRT : Obligations.DoublewordLoadsFillRT :=
  fun _ rt _ _ _ =>
    ⟨loadInto_reading zext_doubleword_toNat rt, loadInto_reading zext_doubleword_toNat rt⟩

/-- Settles O21: `ldu` and `ldux` are the load of eight bytes with update (R75); on a valid form RA and RT
differ, so each keeps what is written to it. -/
theorem doublewordUpdateLoadsFillRTAndRA : Obligations.DoublewordUpdateLoadsFillRTAndRA :=
  fun _ _ _ _ _ h0 hne =>
    ⟨loadIntoUpdate_reading zext_doubleword_toNat h0 hne,
      loadIntoUpdate_reading zext_doubleword_toNat h0 hne⟩

end Sys2Proof.Machine
end

section
/-! SUPPORT. What `lq` leaves behind when it completes (R123, R124): the two slices of the quadword in the
pair, the doublewords they are in each mode, the number the pair stands for, and the frame; and with them
the statement about `lq`. -/

namespace Sys2Proof.Machine

/-! ### The register pair -/

/-- The pair is two registers (R124). -/
theorem Reg.ne_add_one (r : Reg) : r ≠ r + 1 := by decide +revert

theorem OnlyChanged.of_setGprPair (s : State) (rtp : Reg) (q : BitVec 128) :
    OnlyChanged s (s.setGprPair rtp q).advance [rtp, rtp + 1] :=
  .of_setGpr_setGpr ..

/-- `lq` in a valid form and with a readable access completes: the pair holds the two slices of the
quadword, and nothing else has changed. -/
theorem execLq_completes {rtp ra : Reg} {dq : BitVec 12} {s : State} (hne : rtp ≠ ra)
    (heven : rtp.val % 2 = 0) (h : Readable .lq (eaDQ ra dq s) 16 s) :
    let q := storageValue s.le s.mem (eaDQ ra dq s).toNat 16
    ∃ t, execLq rtp ra dq s = .next t ∧ t.gpr rtp = q.extractLsb' 64 64 ∧
      t.gpr (rtp + 1) = q.extractLsb' 0 64 ∧ OnlyChanged s t [rtp, rtp + 1] := by
  refine ⟨_, execLq_of_readable hne heven h, ?_, ?_, .of_setGprPair ..⟩
  · rw [State.advance_gpr, State.gpr_setGprPair, if_neg (Reg.ne_add_one rtp), if_pos rfl]
  · rw [State.advance_gpr, State.gpr_setGprPair, if_pos rfl]

/-! ### The slices of the quadword as numbers -/

/-- A number is put together from its high and its low slice. -/
theorem toNat_eq_slices {j k : Nat} (v : BitVec (j + k)) :
    (v.extractLsb' k j).toNat * 2 ^ k + (v.extractLsb' 0 k).toNat = v.toNat := by
  have hhigh : v.toNat / 2 ^ k < 2 ^ j :=
    Nat.div_lt_of_lt_mul (v.isLt.trans_eq (by rw [pow_add, Nat.mul_comm]))
  rw [BitVec.extractLsb'_toNat, BitVec.extractLsb'_toNat, Nat.shiftRight_eq_div_pow,
    Nat.shiftRight_zero, Nat.mod_eq_of_lt hhigh, Nat.div_add_mod']

/-- In Big-Endian mode the even register's slice is the doubleword at the address, the odd register's
the one 8 bytes above (the table of R124). -/
theorem quadword_big_slices (m : Memory) (a : Nat) :
    ((storageValue false m a 16).extractLsb' 64 64).toNat = bigSum m a 8 ∧
    ((storageValue false m a 16).extractLsb' 0 64).toNat = bigSum m (a + 8) 8 := by
  obtain ⟨hhigh, hlow⟩ := storageValue_big_slices m a 8 8
  exact ⟨(congrArg BitVec.toNat hhigh).trans (storageValue_toNat false m a 8),
    (congrArg BitVec.toNat hlow).trans (storageValue_toNat false m (a + 8) 8)⟩

/-- In Little-Endian mode the two doublewords change places, each byte-reversed (the table of R124). -/
theorem quadword_little_slices (m : Memory) (a : Nat) :
    ((storageValue true m a 16).extractLsb' 64 64).toNat = littleSum m (a + 8) 8 ∧
    ((storageValue true m a 16).extractLsb' 0 64).toNat = littleSum m a 8 := by
  obtain ⟨hhigh, hlow⟩ := storageValue_little_slices m a 8 8
  exact ⟨(congrArg BitVec.toNat hhigh).trans (storageValue_toNat true m (a + 8) 8),
    (congrArg BitVec.toNat hlow).trans (storageValue_toNat true m a 8)⟩

/-- Settles O22: the pair holds the two slices of the quadword, which are its doublewords as the mode
orders them and together its 128 bits. -/
theorem quadwordLoadFillsThePair : Obligations.QuadwordLoadFillsThePair := by
  intro s rtp ra dq hne heven ea h
  obtain ⟨t, ht, hhigh, hlow, hframe⟩ := execLq_completes hne heven h
  refine ⟨t, ht, fun hbig => ?_, fun hlittle => ?_, ?_, hframe⟩
  · rw [hhigh, hlow, hbig]
    exact quadword_big_slices s.mem ea.toNat
  · rw [hhigh, hlow, hlittle]
    exact quadword_little_slices s.mem ea.toNat
  · rw [hhigh, hlow]
    exact (toNat_eq_slices _).trans (storageValue_toNat s.le s.mem ea.toNat 16)

end Sys2Proof.Machine
end

section
/-! SUPPORT. Byte reversal (R14, R78) as a concatenation of slices, and a load that reverses its operand as
the sum of R37 in the other mode; and with them the statements about reversal and the byte-reverse
loads. -/

namespace Sys2Proof.Machine

/-! ### The little-endian reading as a concatenation -/

/-- The little-endian reading of one byte is the byte. -/
theorem ofNat_littleValue_singleton (b : Byte) : BitVec.ofNat 8 (littleValue [b]) = b := by
  simp [littleValue]

/-- The first byte of a little-endian reading is its low slice, below the reading of the others. -/
theorem ofNat_littleValue_cons {n : Nat} (b : Byte) (bs : List Byte) :
    BitVec.ofNat (n + 8) (littleValue (b :: bs)) = BitVec.ofNat n (littleValue bs) ++ b := by
  have hb : b.toNat < 2 ^ 8 := b.isLt
  have hlow : littleValue (b :: bs) % 2 ^ 8 = b.toNat := by rw [littleValue]; omega
  have hrest : littleValue (b :: bs) / 2 ^ 8 = littleValue bs := by rw [littleValue]; omega
  apply BitVec.eq_of_toNat_eq
  rw [BitVec.toNat_ofNat, BitVec.toNat_append, BitVec.toNat_ofNat,
    ← Nat.shiftLeft_add_eq_or_of_lt hb, Nat.shiftLeft_eq, Nat.pow_add, Nat.mul_comm (2 ^ n),
    Nat.mod_mul, hlow, hrest, Nat.add_comm, Nat.mul_comm]

/-! ### The reversal of two, four and eight bytes -/

theorem brev_two (v : BitVec 16) : brev 2 v = v.extractLsb' 0 8 ++ v.extractLsb' 8 8 := by
  change BitVec.ofNat (8 + 8) (littleValue [v.extractLsb' 8 8, v.extractLsb' 0 8]) = _
  rw [ofNat_littleValue_cons, ofNat_littleValue_singleton]

theorem brev_four (v : BitVec 32) : brev 4 v =
    v.extractLsb' 0 8 ++ v.extractLsb' 8 8 ++ v.extractLsb' 16 8 ++ v.extractLsb' 24 8 := by
  change BitVec.ofNat (8 + 8 + 8 + 8) (littleValue
    [v.extractLsb' 24 8, v.extractLsb' 16 8, v.extractLsb' 8 8, v.extractLsb' 0 8]) = _
  iterate 3 rw [ofNat_littleValue_cons]
  rw [ofNat_littleValue_singleton]

theorem brev_eight (v : BitVec 64) : brev 8 v =
    v.extractLsb' 0 8 ++ v.extractLsb' 8 8 ++ v.extractLsb' 16 8 ++ v.extractLsb' 24 8 ++
    v.extractLsb' 32 8 ++ v.extractLsb' 40 8 ++ v.extractLsb' 48 8 ++ v.extractLsb' 56 8 := by
  change BitVec.ofNat (8 + 8 + 8 + 8 + 8 + 8 + 8 + 8) (littleValue
    [v.extractLsb' 56 8, v.extractLsb' 48 8, v.extractLsb' 40 8, v.extractLsb' 32 8,
      v.extractLsb' 24 8, v.extractLsb' 16 8, v.extractLsb' 8 8, v.extractLsb' 0 8]) = _
  iterate 7 rw [ofNat_littleValue_cons]
  rw [ofNat_littleValue_singleton]

/-- Settles O9: the reversal is the little-endian reading of the slices, the most significant first. -/
theorem byteReversalSwapsTheSlices : Obligations.ByteReversalSwapsTheSlices :=
  ⟨brev_two, brev_four, brev_eight⟩

/-! ### The byte-reverse loads -/

/-- A load that reverses its operand, whose access is readable: RT reads as the sum of R37 in the mode
that the machine is not in (R78, R129). -/
theorem loadInto_brev_completes {m : Mnemonic} {n : Nat} {ea : Word} {s : State} (hn : 8 * n ≤ 64)
    (rt : Reg) (h : Readable m ea n s) :
    ∃ t, loadInto m n (fun v => zext (brev n v)) rt ea s = .next t ∧
      (t.gpr rt).toNat = modeSum (!s.le) s.mem ea.toNat n ∧ OnlyChanged s t [rt] := by
  obtain ⟨t, ht, hrt, hframe⟩ := loadInto_completes (fun v => zext (brev n v)) rt h
  exact ⟨t, ht, by rw [hrt, zext_toNat _ hn, brev_storageValue, storageValue_toNat], hframe⟩

/-- Settles O23: `lhbrx`, `lwbrx` and `ldbrx` are the reversing load of two, four and eight bytes at the
address of the indexed form (R74). -/
theorem byteReverseLoadsReadTheOppositeOrder :
    Obligations.ByteReverseLoadsReadTheOppositeOrder := fun _ rt _ _ =>
  ⟨loadInto_brev_completes (by decide) rt, loadInto_brev_completes (by decide) rt,
    loadInto_brev_completes (by decide) rt⟩

end Sys2Proof.Machine
end

section
/-! SUPPORT. The failing ends of an access (R36) and of the loads (R70): each test of `MemRead`, each
invalid form, the mode test of `lmw`; and with them the statements about `lmw` and about an access
that fails. -/

namespace Sys2Proof.Machine

/-! ### The tests of `MemRead` -/

section
variable {m : Mnemonic} {a : Word} {n : Nat} {s : State}

theorem memRead_of_wrap (h : 2 ^ 64 < a.toNat + n) :
    memRead m a n s = .error (.refuse .addressWrap) := by
  rw [memRead, if_pos h]

theorem memRead_of_alignFault (h : a.toNat + n ≤ 2 ^ 64) (halign : alignFault s.params m a n = true) :
    memRead m a n s = .error (.raise (.alignment s.pc (some a))) := by
  rw [memRead, if_neg (not_lt.2 h), if_pos halign]

theorem memRead_of_inaccessible (h : a.toNat + n ≤ 2 ^ 64) (halign : alignFault s.params m a n = false)
    (hbyte : ∃ k < n, accessible s.params (a.toNat + k) = false) :
    memRead m a n s = .error (.raise (.storageFault s.pc a)) := by
  have hany : ((List.range n).any fun i => !accessible s.params (a.toNat + i)) = true := by
    simpa using hbyte
  rw [memRead, if_neg (not_lt.2 h), if_neg (by simp [halign]), if_pos hany]

end

/-- What an instruction answers when an access stops it: the raise, or the refusal. -/
def Stop.answer (e : Stop) (s : State) : Result :=
  match e with
  | .raise f => .next { s with fault := some f }
  | .refuse r => .refused r

/-- An access that stops ends the instruction, whatever it would have done with the value (R70). -/
@[simp] theorem withValue_error {α : Type} (e : Stop) (s : State) (k : α → Result) :
    withValue (.error e) s k = e.answer s := by
  cases e with
  | raise f => exact withValue_raise f s k
  | refuse r => exact withValue_refuse r s k

/-! ### The invalid forms and the mode test -/

/-- `lq` with RTp = RA raises, before any other test (R125). -/
theorem execLq_of_eq (r : Reg) (dq : BitVec 12) (s : State) :
    execLq r r dq s = .next { s with fault := some (.illegalInstruction s.pc) } := by
  rw [execLq, if_pos rfl, raise_eq]

/-- `lq` with RTp odd and not RA raises (R125). -/
theorem execLq_of_odd {rtp ra : Reg} (dq : BitVec 12) (s : State) (hne : rtp ≠ ra)
    (hodd : rtp.val % 2 = 1) :
    execLq rtp ra dq s = .next { s with fault := some (.invalidForm s.pc) } := by
  rw [execLq, if_neg hne, if_pos hodd, raise_eq]

/-- `lmw` with RA among its targets raises, in either mode (R132). -/
theorem execLmw_of_invalid {rt ra : Reg} (d : BitVec 16) (s : State) (h : rt ≤ ra) :
    execLmw rt ra d s = .next { s with fault := some (.invalidForm s.pc) } := by
  rw [execLmw, if_pos h, raise_eq]

/-- A valid form of `lmw` raises in Little-Endian mode, before any access (R131). -/
theorem execLmw_of_little {rt ra : Reg} (d : BitVec 16) {s : State} (h : ra < rt)
    (hle : s.le = true) :
    execLmw rt ra d s = .next { s with fault := some (.alignment s.pc none) } := by
  rw [execLmw, if_neg (not_le.2 h), if_pos hle, raise_eq]

/-- Settles O30: each of the eleven update forms is a load with update, whose first test it is. -/
theorem invalidFormsRaiseTheirFault : Obligations.InvalidFormsRaiseTheirFault := by
  intro s rt ra rb d ds dq invalid
  refine ⟨fun h => ?_, fun h => ?_, fun hne hodd => execLq_of_odd dq s hne hodd,
    fun h => execLmw_of_invalid d s h⟩
  · have hupdate : ∀ (m : Mnemonic) (n : Nat) (fill : BitVec (8 * n) → Word) (ea : Word),
        loadIntoUpdate m n fill rt ra ea s = invalid :=
      fun _ _ fill ea => loadIntoUpdate_of_invalid fill ea h
    exact ⟨hupdate .., hupdate .., hupdate .., hupdate .., hupdate .., hupdate .., hupdate ..,
      hupdate .., hupdate .., hupdate .., hupdate ..⟩
  · subst h
    exact execLq_of_eq rt dq s

/-- Settles O34: the form is tested before the mode, and the mode before any access. -/
theorem loadMultipleInLittleEndianModeRaisesAlignment :
    Obligations.LoadMultipleInLittleEndianModeRaisesAlignment := fun s _ _ d =>
  ⟨execLmw_of_little d, execLmw_of_invalid d s⟩

/-! ### The words of `lmw` -/

theorem OnlyChanged.of_setGprsFrom (s : State) (rt ra : Reg) (d : BitVec 16) (ws : List Word) :
    OnlyChanged s (s.setGprsFrom rt.val ws).advance (Instr.lmw rt ra d).writes where
  gpr g hg := by
    have hbelow : ¬ rt.val ≤ g.val := mt mem_writes_lmw.2 hg
    rw [State.advance_gpr, State.gpr_setGprsFrom, if_neg fun h => hbelow h.left]
  pc := by simp
  le := by simp
  mem := by simp
  fault := by simp
  params := by simp

section
variable {rt ra : Reg} {d : BitVec 16} {s : State}

/-- `lmw` in a valid form, in Big-Endian mode, with all its words readable completes: every register from
RT up holds its word, zero-extended, and nothing else has changed (R130). -/
theorem execLmw_completes (hlt : ra < rt) (hbig : s.le = false)
    (h : ∀ k < 32 - rt.val, Readable .lmw (eaD ra d s + BitVec.ofNat 64 (4 * k)) 4 s) :
    ∃ t, execLmw rt ra d s = .next t ∧
      (∀ r : Reg, rt ≤ r → t.gpr r = zext (storageValue s.le s.mem
        (eaD ra d s + BitVec.ofNat 64 (4 * (r.val - rt.val))).toNat 4)) ∧
      OnlyChanged s t (Instr.lmw rt ra d).writes := by
  refine ⟨_, execLmw_of_readable hlt hbig h, fun r hr => ?_, .of_setGprsFrom ..⟩
  have hle : rt.val ≤ r.val := hr
  have hword : r.val - rt.val < 32 - rt.val := by omega
  rw [State.advance_gpr, State.gpr_setGprsFrom, if_pos]
  · simp [hword]
  · rw [List.length_map, List.length_map, List.length_range]
    omega

/-- Settles O24: the words are those of R37 in Big-Endian mode, and zero extension keeps the number. -/
theorem loadMultipleFillsRTTo31 : Obligations.LoadMultipleFillsRTTo31 := by
  intro s rt ra d hlt hbig ea h
  obtain ⟨t, ht, hgpr, hframe⟩ := execLmw_completes hlt hbig h
  refine ⟨t, ht, fun r hr => ?_, hframe⟩
  rw [hgpr r hr, hbig, zext_word_toNat, storageValue_toNat]
  rfl

/-- `lmw` in a valid form and in Big-Endian mode ends as its first failing word does (R130). -/
theorem execLmw_of_failing {k : Nat} {e : Stop} (hlt : ra < rt) (hbig : s.le = false)
    (hk : k < 32 - rt.val)
    (hbefore : ∀ j < k, Readable .lmw (eaD ra d s + BitVec.ofNat 64 (4 * j)) 4 s)
    (he : memRead .lmw (eaD ra d s + BitVec.ofNat 64 (4 * k)) 4 s = .error e) :
    execLmw rt ra d s = e.answer s := by
  rw [execLmw, if_neg (not_le.2 hlt), if_neg (by simp [hbig]),
    readWords_of_failing _ _ k hk hbefore he, withValue_error]

end

/-- Settles O36: the three tests of `MemRead` at the first failing word. -/
theorem loadMultipleEndsAtTheFirstFailingWord :
    Obligations.LoadMultipleEndsAtTheFirstFailingWord := by
  intro s rt ra d k hlt hbig hk word hbefore
  exact ⟨fun h => execLmw_of_failing hlt hbig hk hbefore (memRead_of_wrap h),
    fun h halign => execLmw_of_failing hlt hbig hk hbefore (memRead_of_alignFault h halign),
    fun h halign hbyte =>
      execLmw_of_failing hlt hbig hk hbefore (memRead_of_inaccessible h halign hbyte)⟩

/-! ### Loads with one access -/

/-- The instruction is one access at its effective address (R45): it ends as the access does, or goes on
with the value read to a state that has the same fault status. -/
def OneAccess (i : Instr) : Prop :=
  ∀ s, ∃ k : BitVec (8 * i.mnemonic.bytes) → State, (∀ v, (k v).fault = s.fault) ∧
    exec i s = withValue (memRead i.mnemonic (i.ea s) i.mnemonic.bytes s) s fun v => .next (k v)

theorem OneAccess.of_loadInto {i : Instr} {fill : BitVec (8 * i.mnemonic.bytes) → Word} {rt : Reg}
    (hexec : ∀ s, exec i s = loadInto i.mnemonic i.mnemonic.bytes fill rt (i.ea s) s) :
    OneAccess i :=
  fun s => ⟨fun v => (s.setGpr rt (fill v)).advance, fun _ => rfl, hexec s⟩

theorem OneAccess.of_loadIntoUpdate {i : Instr} {fill : BitVec (8 * i.mnemonic.bytes) → Word}
    {rt ra : Reg} (hvalid : updateFormValid rt ra = true)
    (hexec : ∀ s, exec i s = loadIntoUpdate i.mnemonic i.mnemonic.bytes fill rt ra (i.ea s) s) :
    OneAccess i := by
  have hform : ¬ (ra = 0 ∨ ra = rt) := by simpa [updateFormValid] using hvalid
  exact fun s => ⟨fun v => ((s.setGpr rt (fill v)).setGpr ra (i.ea s)).advance, fun _ => rfl,
    (hexec s).trans (if_neg hform)⟩

theorem OneAccess.of_lq {rtp ra : Reg} {dq : BitVec 12} (hvalid : lqFormValid rtp ra = true) :
    OneAccess (.lq rtp ra dq) := by
  obtain ⟨heven, hne⟩ : rtp.val % 2 = 0 ∧ rtp ≠ ra := by simpa [lqFormValid] using hvalid
  refine fun s => ⟨fun q => (s.setGprPair rtp q).advance, fun _ => rfl, ?_⟩
  change execLq rtp ra dq s = _
  rw [execLq, if_neg hne, if_neg (by omega)]
  rfl

/-- Every valid form but that of `lmw` is one access. -/
theorem oneAccess (i : Instr) (hform : i.wellFormed = true) (hlmw : i.mnemonic ≠ .lmw) :
    OneAccess i :=
  match i, hform, hlmw with
  | .lbz .., _, _ | .lbzx .., _, _ | .lhz .., _, _ | .lhzx .., _, _ | .lha .., _, _
  | .lhax .., _, _ | .lwz .., _, _ | .lwzx .., _, _ | .lwa .., _, _ | .lwax .., _, _
  | .ld .., _, _ | .ldx .., _, _ | .lhbrx .., _, _ | .lwbrx .., _, _ | .ldbrx .., _, _ =>
    .of_loadInto fun _ => rfl
  | .lbzu .., h, _ | .lbzux .., h, _ | .lhzu .., h, _ | .lhzux .., h, _ | .lhau .., h, _
  | .lhaux .., h, _ | .lwzu .., h, _ | .lwzux .., h, _ | .lwaux .., h, _ | .ldu .., h, _
  | .ldux .., h, _ => .of_loadIntoUpdate h fun _ => rfl
  | .lq .., h, _ => .of_lq h
  | .lmw .., _, hlmw => absurd rfl hlmw

/-- A valid form with one access ends as its access does. -/
theorem exec_of_failing {i : Instr} {s : State} {e : Stop} (hform : i.wellFormed = true)
    (hlmw : i.mnemonic ≠ .lmw)
    (he : memRead i.mnemonic (i.ea s) i.mnemonic.bytes s = .error e) : exec i s = e.answer s := by
  obtain ⟨k, -, hexec⟩ := oneAccess i hform hlmw s
  rw [hexec, he, withValue_error]

/-- Settles O35: the three tests of `MemRead` at the effective address. -/
theorem failingAccessEndsTheLoad : Obligations.FailingAccessEndsTheLoad := by
  intro i s hform hlmw ea n
  exact ⟨fun h => exec_of_failing hform hlmw (memRead_of_wrap h),
    fun h halign => exec_of_failing hform hlmw (memRead_of_alignFault h halign),
    fun h halign hbyte => exec_of_failing hform hlmw (memRead_of_inaccessible h halign hbyte)⟩

end Sys2Proof.Machine
end

section
/-! SUPPORT. Every end of an instruction with its cause (R62, R131, R200 to R205): an invalid form, the mode
test of `lmw`, an access that fails, or completion; and with it the statements about the causes of faults
and about completion. -/

namespace Sys2Proof.Machine

/-! ### Invalid forms -/

theorem updateFormValid_eq_false_iff {rt ra : Reg} :
    updateFormValid rt ra = false ↔ ra = 0 ∨ ra = rt := by
  simp [updateFormValid, imp_iff_not_or]

theorem lmwFormValid_eq_false_iff {rt ra : Reg} : lmwFormValid rt ra = false ↔ rt ≤ ra := by
  simp [lmwFormValid]

/-- An invalid form raises; `lq` with RTp = RA has a record of its own (R201, R202). -/
theorem exec_of_invalid (i : Instr) (s : State) (hform : i.wellFormed = false) :
    ((∃ r dq, i = .lq r r dq) ∧
      exec i s = .next { s with fault := some (.illegalInstruction s.pc) }) ∨
    ((¬ ∃ r dq, i = .lq r r dq) ∧
      exec i s = .next { s with fault := some (.invalidForm s.pc) }) :=
  match i, hform with
  | .lbzu .., h | .lbzux .., h | .lhzu .., h | .lhzux .., h | .lhau .., h | .lhaux .., h
  | .lwzu .., h | .lwzux .., h | .lwaux .., h | .ldu .., h | .ldux .., h =>
    .inr ⟨nofun, loadIntoUpdate_of_invalid _ _ (updateFormValid_eq_false_iff.1 h)⟩
  | .lmw _ _ d, h => .inr ⟨nofun, execLmw_of_invalid d s (lmwFormValid_eq_false_iff.1 h)⟩
  | .lq rtp ra dq, h => by
    by_cases heq : rtp = ra
    · subst heq
      exact .inl ⟨⟨rtp, dq, rfl⟩, execLq_of_eq rtp dq s⟩
    · have hodd : rtp.val % 2 = 1 := by
        simpa [Instr.wellFormed, lqFormValid, heq] using h
      refine .inr ⟨?_, execLq_of_odd dq s heq hodd⟩
      rintro ⟨r, dq', e⟩
      obtain ⟨rfl, rfl, -⟩ := Instr.lq.inj e
      exact heq rfl

/-! ### The ends of an instruction -/

/-- The ends of the instruction `i` from `s`, each with what brings it about. -/
inductive ExecEnd (i : Instr) (s : State) : Result → Prop
  /-- `lq` with RTp = RA (R201). -/
  | illegal (h : ∃ r dq, i = .lq r r dq) :
      ExecEnd i s (.next { s with fault := some (.illegalInstruction s.pc) })
  /-- Any other invalid form (R202). -/
  | invalid (hform : i.wellFormed = false) (hlq : ¬ ∃ r dq, i = .lq r r dq) :
      ExecEnd i s (.next { s with fault := some (.invalidForm s.pc) })
  /-- `lmw` in Little-Endian mode (R131, R203). -/
  | littleMultiple (hform : i.wellFormed = true) (hlmw : i.mnemonic = .lmw) (hle : s.le = true) :
      ExecEnd i s (.next { s with fault := some (.alignment s.pc none) })
  /-- An access that the instruction comes to raises (R203 to R205). -/
  | raised (hform : i.wellFormed = true) {a : Word} (hreach : i.ReachesAccess s a) {f : Fault}
      (he : memRead i.mnemonic a i.mnemonic.bytes s = .error (.raise f)) :
      ExecEnd i s (.next { s with fault := some f })
  /-- An access that the instruction comes to is refused (R43). -/
  | refused (hform : i.wellFormed = true) {a : Word} (hreach : i.ReachesAccess s a) {r : Refusal}
      (he : memRead i.mnemonic a i.mnemonic.bytes s = .error (.refuse r)) :
      ExecEnd i s (.refused r)
  /-- All accesses are readable. -/
  | completed (hform : i.wellFormed = true) (hbig : i.mnemonic = .lmw → s.le = false) {t : State}
      (ht : t.fault = s.fault) : ExecEnd i s (.next t)

/-- An access that the instruction comes to stops it. -/
theorem ExecEnd.of_stop {i : Instr} {s : State} {a : Word} {e : Stop} (hform : i.wellFormed = true)
    (hreach : i.ReachesAccess s a) (he : memRead i.mnemonic a i.mnemonic.bytes s = .error e) :
    ExecEnd i s (e.answer s) :=
  match e, he with
  | .raise _, he => .raised hform hreach he
  | .refuse _, he => .refused hform hreach he

/-- An instruction with one access comes to it at its effective address. -/
theorem reachesAccess_ea {i : Instr} (s : State) (hlmw : i.mnemonic ≠ .lmw) :
    i.ReachesAccess s (i.ea s) :=
  ⟨fun _ => rfl, fun _ _ _ h => absurd (congrArg Instr.mnemonic h) hlmw⟩

/-- `lmw` comes to a word when it has read those before it. -/
theorem reachesAccess_lmw {rt ra : Reg} {d : BitVec 16} {s : State} {k : Nat} (hbig : s.le = false)
    (hk : k < 32 - rt.val)
    (hbefore : ∀ j < k, Readable .lmw (eaD ra d s + BitVec.ofNat 64 (4 * j)) 4 s) :
    (Instr.lmw rt ra d).ReachesAccess s (eaD ra d s + BitVec.ofNat 64 (4 * k)) := by
  refine ⟨fun h => absurd rfl h, fun rt' ra' d' h => ?_⟩
  obtain ⟨rfl, rfl, rfl⟩ := Instr.lmw.inj h
  exact ⟨hbig, k, hk, rfl, hbefore⟩

theorem eq_lmw_of_mnemonic {i : Instr} (h : i.mnemonic = .lmw) : ∃ rt ra d, i = .lmw rt ra d :=
  match i, h with
  | .lmw rt ra d, _ => ⟨rt, ra, d, rfl⟩

/-- The ends of a valid form of `lmw`. -/
theorem execLmw_end {rt ra : Reg} (d : BitVec 16) (s : State) (hlt : ra < rt) :
    ExecEnd (.lmw rt ra d) s (execLmw rt ra d s) := by
  have hform : (Instr.lmw rt ra d).wellFormed = true := decide_eq_true hlt
  cases hmode : s.le with
  | true =>
    rw [execLmw_of_little d hlt hmode]
    exact .littleMultiple hform rfl hmode
  | false =>
    obtain ⟨hr, -⟩ | ⟨k, hk, e, hbefore, he, -⟩ := readWords_cases .lmw (eaD ra d s) s (32 - rt.val)
    · rw [execLmw_of_readable hlt hmode hr]
      exact .completed hform (fun _ => hmode) (by simp)
    · rw [execLmw_of_failing hlt hmode hk hbefore he]
      exact .of_stop hform (reachesAccess_lmw hmode hk hbefore) he

/-- The ends of a valid form with one access. -/
theorem OneAccess.execEnd {i : Instr} (h : OneAccess i) (s : State) (hform : i.wellFormed = true)
    (hlmw : i.mnemonic ≠ .lmw) : ExecEnd i s (exec i s) := by
  obtain ⟨k, hk, hexec⟩ := h s
  rw [hexec]
  cases he : memRead i.mnemonic (i.ea s) i.mnemonic.bytes s with
  | error e =>
    rw [withValue_error]
    exact .of_stop hform (reachesAccess_ea s hlmw) he
  | ok v => exact .completed hform (fun h => absurd h hlmw) (hk v)

/-- Every end of every instruction has its cause. -/
theorem execEnd (i : Instr) (s : State) : ExecEnd i s (exec i s) := by
  cases hform : i.wellFormed with
  | false =>
    obtain ⟨hlq, hexec⟩ | ⟨hlq, hexec⟩ := exec_of_invalid i s hform
    · rw [hexec]
      exact .illegal hlq
    · rw [hexec]
      exact .invalid hform hlq
  | true =>
    by_cases hlmw : i.mnemonic = .lmw
    · obtain ⟨rt, ra, d, rfl⟩ := eq_lmw_of_mnemonic hlmw
      exact execLmw_end d s (of_decide_eq_true hform)
    · exact (oneAccess i hform hlmw).execEnd s hform hlmw

/-! ### Causes -/

/-- A record that an access raises, with the tests of R36 that brought it about. -/
theorem memRead_raise_cause {m : Mnemonic} {a : Word} {n : Nat} {s : State} {f : Fault}
    (h : memRead m a n s = .error (.raise f)) :
    a.toNat + n ≤ 2 ^ 64 ∧
      ((f = .alignment s.pc (some a) ∧ alignFault s.params m a n = true) ∨
      (f = .storageFault s.pc a ∧ alignFault s.params m a n = false ∧
        ∃ k < n, accessible s.params (a.toNat + k) = false)) := by
  obtain ⟨-, e⟩ | ⟨hfits, halign, e⟩ | ⟨hfits, halign, hbyte, e⟩ | ⟨-, e⟩ := memRead_cases m a n s
  · cases h.symm.trans e
  · cases h.symm.trans e
    exact ⟨hfits, .inl ⟨rfl, halign⟩⟩
  · cases h.symm.trans e
    exact ⟨hfits, .inr ⟨rfl, halign, hbyte⟩⟩
  · cases h.symm.trans e

/-- Settles O32: the record of each end that raises. -/
theorem raisedFaultsHaveTheirCause : Obligations.RaisedFaultsHaveTheirCause := by
  intro i s t f hs h hf
  have hend := execEnd i s
  rw [h] at hend
  cases hend with
  | illegal hlq => cases hf; exact ⟨rfl, hlq⟩
  | invalid hform hlq => cases hf; exact ⟨rfl, hform, hlq⟩
  | littleMultiple hform hlmw hle => cases hf; exact ⟨rfl, hform, hlmw, hle⟩
  | raised hform hreach he =>
    cases hf
    obtain ⟨hfits, ⟨rfl, halign⟩ | ⟨rfl, halign, hbyte⟩⟩ := memRead_raise_cause he
    · exact ⟨rfl, hform, hreach, hfits, halign⟩
    · exact ⟨rfl, hform, hreach, hfits, halign, hbyte⟩
  | completed hform hbig ht => cases hf.symm.trans (ht.trans hs)

/-- Settles O31: the cause of the record is the only instruction that has it. -/
theorem illegalInstructionIsRaisedByLqAlone : Obligations.IllegalInstructionIsRaisedByLqAlone := by
  intro i s hs
  constructor
  · rintro ⟨r, dq, rfl⟩
    exact execLq_of_eq r dq s
  · intro t pc h hf
    exact raisedFaultsHaveTheirCause i s t _ hs h hf

/-- Settles O33: every other end of an instruction leaves a record. -/
theorem completionNeedsAValidForm : Obligations.CompletionNeedsAValidForm := by
  intro i s t _ ht h
  have hend := execEnd i s
  rw [h] at hend
  cases hend with
  | completed hform hbig _ => exact ⟨hform, hbig⟩
  | illegal _ => cases ht
  | invalid _ _ => cases ht
  | littleMultiple _ _ _ => cases ht
  | raised _ _ _ => cases ht

end Sys2Proof.Machine
end

section
/-! SUPPORT. Words that decode, and words in no row of the opcode map (R61, R65); and with them the
statements about the encoding examples and about reserved bits. -/

namespace Sys2Proof

/-- Settles O5: each word is what the encoder makes of the instruction beside it. -/
theorem encodingExamplesDecode : Obligations.EncodingExamplesDecode :=
  ⟨decodeOfEncodeIsIdentity (.lbz 3 4 0x0009), decodeOfEncodeIsIdentity (.lwzx 3 4 5),
    decodeOfEncodeIsIdentity (.ld 3 4 0x3FFE), decodeOfEncodeIsIdentity (.ldu 3 4 2),
    decodeOfEncodeIsIdentity (.lq 8 4 0xFFF), decodeOfEncodeIsIdentity (.lha 3 4 8),
    decodeOfEncodeIsIdentity (.lhbrx 3 4 6), decodeOfEncodeIsIdentity (.lmw 29 1 0xFFF4)⟩

/-- The words in no row are those that decoding answers `notInScope` to (R65). -/
theorem decodeWord_eq_notInScope_iff {w : InstrWord} :
    decodeWord w = .error .notInScope ↔ ∀ r ∈ opcodeTable, w &&& r.mask ≠ r.pattern := by
  constructor
  · intro h r hr hw
    cases h.symm.trans (decodeWord_eq_ok_iff.2 ⟨r, hr, hw, rfl⟩)
  · intro h
    unfold decodeWord
    rw [List.find?_eq_none.2 fun r hr => mt OpcodeRow.selects_iff.1 (h r hr)]

/-- Where every row of a primary opcode fixes the slice of `n` bits at `k` to a value that has the
property `P`, a word of that opcode whose slice has not is in no row. -/
theorem decodeWord_notInScope_of_slice {w : InstrWord} {opcd : BitVec 6} {k n : Nat}
    (P : BitVec n → Prop) (hopcd : w.extractLsb' 26 6 = opcd) (hslice : ¬ P (w.extractLsb' k n))
    (hrows : ∀ r ∈ opcodeTable, r.mask.extractLsb' 26 6 = BitVec.allOnes 6 ∧
      (r.pattern.extractLsb' 26 6 = opcd →
        r.mask.extractLsb' k n = BitVec.allOnes n ∧ P (r.pattern.extractLsb' k n))) :
    decodeWord w = .error .notInScope := by
  refine decodeWord_eq_notInScope_iff.2 fun r hr hw => hslice ?_
  obtain ⟨hmask, hrow⟩ := hrows r hr
  have hpattern : r.pattern.extractLsb' 26 6 = opcd :=
    (extractLsb'_of_masked hw hmask rfl).trans hopcd
  obtain ⟨hfixed, hP⟩ := hrow hpattern
  exact extractLsb'_of_masked hw hfixed rfl ▸ hP

/-- Settles O4: the rows of opcode 31 and of opcode 56 fix the reserved bits to 0, and no row of opcode 58
has XO 3. -/
theorem reservedBitsAreNotInScope : Obligations.ReservedBitsAreNotInScope := by
  intro w
  refine ⟨fun hopcd hbit => ?_, fun hopcd hbits => ?_, fun hopcd hxo => ?_⟩
  · have hslice : w.extractLsb' 0 1 ≠ 0 := fun h => by
      have hclear : w.getLsbD 0 = false := by simpa using congrArg (BitVec.getLsbD · 0) h
      cases hbit.symm.trans hclear
    exact decodeWord_notInScope_of_slice (· = 0) hopcd hslice (by decide)
  · exact decodeWord_notInScope_of_slice (· = 0) hopcd hbits (by decide)
  · exact decodeWord_notInScope_of_slice (· ≠ 3) hopcd (not_not.2 hxo) (by decide)

end Sys2Proof
end

section
/-! SUPPORT. The word that four bytes of storage make (R37, R50), fetch test by test, and what a step does
with the word fetched (R70); and with them the statements about the value of an operand, and about fetch
and step. -/

namespace Sys2Proof.Machine

/-! ### The value of an operand, and the word of four bytes -/

/-- Settles O8: the value is the sum of R37, its reversal the value in the other mode. -/
theorem storageValueIsTheSumOfItsBytes : Obligations.StorageValueIsTheSumOfItsBytes := by
  intro le m a n
  refine ⟨storageValue_toNat false m a n, storageValue_toNat true m a n, ?_,
    storageValue_byte le m a⟩
  rw [brev_storageValue, Bool.not_not]

/-- An operand of four bytes is the word made of them in the order of the mode (R37, R50). -/
theorem storageValue_of_bytesAt {le : Bool} {m : Memory} {a : Nat} {b0 b1 b2 b3 : Byte}
    (h : m.bytesAt a 4 = [b0, b1, b2, b3]) :
    storageValue le m a 4 = wordOfBytes le b0 b1 b2 b3 := by
  have hword : ∀ c0 c1 c2 c3 : Byte,
      BitVec.ofNat (8 + 8 + 8 + 8) (littleValue [c0, c1, c2, c3]) = c3 ++ c2 ++ c1 ++ c0 := by
    intro c0 c1 c2 c3
    iterate 3 rw [ofNat_littleValue_cons]
    rw [ofNat_littleValue_singleton]
  rw [storageValue, h]
  cases le with
  | false => rw [bigValue_eq_littleValue_reverse]; exact hword b3 b2 b1 b0
  | true => exact hword b0 b1 b2 b3

/-- A word is made of its own bytes, in either order. -/
theorem storageValue_of_bytesOfWord {le : Bool} {m : Memory} {a : Nat} {w : InstrWord}
    (h : m.bytesAt a 4 = bytesOfWord le w) : storageValue le m a 4 = w := by
  have hparts : w.extractLsb' 24 8 ++ w.extractLsb' 16 8 ++ w.extractLsb' 8 8 ++
      w.extractLsb' 0 8 = w := by grind
  cases le with
  | false => exact (storageValue_of_bytesAt h).trans hparts
  | true => exact (storageValue_of_bytesAt h).trans hparts

/-- Decoding four bytes of storage is decoding the word they make. -/
theorem decodeBytes_bytesAt (le : Bool) (m : Memory) (a : Nat) :
    decodeBytes le (m.bytesAt a 4) = decodeWord (storageValue le m a 4) := by
  have hbytes : m.bytesAt a 4 = [m.read a, m.read (a + 1), m.read (a + 2), m.read (a + 3)] := rfl
  rw [storageValue_of_bytesAt hbytes, hbytes, decodeBytes]

/-! ### Fetch -/

/-- An instruction word can be fetched at `pc` (R23, R50). -/
structure Fetchable (s : State) : Prop where
  aligned  : s.pc.toNat % 4 = 0
  notLast  : s.pc.toNat ≠ 2 ^ 64 - 4
  allBytes : ∀ k < 4, accessible s.params (s.pc.toNat + k) = true

theorem Fetchable.fetch_eq {s : State} (h : Fetchable s) :
    fetch s = .ok (storageValue s.le s.mem s.pc.toNat 4) := by
  have hany : ((List.range 4).any fun i => !accessible s.params (s.pc.toNat + i)) = false := by
    simpa using h.allBytes
  rw [fetch, if_neg (not_not.2 h.aligned), if_neg h.notLast, if_neg (by simp [hany])]

/-! ### Step -/

section
variable {s : State}

/-- A state that holds a fault has no further step (R200). -/
theorem step_of_fault {f : Fault} (h : s.fault = some f) : step s = .fault f := by
  rw [step, h]

theorem step_of_fetch_error (hs : s.fault = none) {e : Stop} (h : fetch s = .error e) :
    step s = e.answer s := by
  simp only [step, hs, h, withValue_error]

theorem step_of_decoded (hs : s.fault = none) (h : Fetchable s) {i : Instr}
    (hi : decodeWord (storageValue s.le s.mem s.pc.toNat 4) = .ok i) : step s = exec i s := by
  simp only [step, hs, h.fetch_eq, withValue_ok, hi]

theorem step_of_undecoded (hs : s.fault = none) (h : Fetchable s) {e : DecodeError}
    (he : decodeWord (storageValue s.le s.mem s.pc.toNat 4) = .error e) :
    step s = .refused .notInScope := by
  simp only [step, hs, h.fetch_eq, withValue_ok, he]

end

/-- Settles O40: the bytes and the word they make decode to the same instruction. -/
theorem stepRunsTheDecodedInstruction : Obligations.StepRunsTheDecodedInstruction := by
  intro s i hs haligned hlast haccess hi
  exact step_of_decoded hs ⟨haligned, hlast, haccess⟩ (decodeBytes_bytesAt .. ▸ hi)

/-- Settles O44: the word of R37 is the one word with that number, so it is in no row. -/
theorem wordsOutsideTheTableAreRefused : Obligations.WordsOutsideTheTableAreRefused := by
  intro s hs haligned hlast haccess hrows
  exact step_of_undecoded hs ⟨haligned, hlast, haccess⟩ (decodeWord_eq_notInScope_iff.2 fun r hr =>
    hrows r hr _ (storageValue_toNat s.le s.mem s.pc.toNat 4))

/-- Settles O42: the two tests of fetch that refuse. -/
theorem fetchIsRefusedAtABadPc : Obligations.FetchIsRefusedAtABadPc := by
  intro s hs
  refine ⟨fun h => ?_, fun h => ?_⟩
  · exact step_of_fetch_error hs (e := .refuse .pcMisaligned) (if_pos h)
  · have haligned : ¬ s.pc.toNat % 4 ≠ 0 := by omega
    have hfetch : fetch s = .error (.refuse .pcWrap) := by rw [fetch, if_neg haligned, if_pos h]
    exact step_of_fetch_error hs hfetch

/-- Settles O43: the test of fetch that raises. -/
theorem fetchOfAnInaccessibleByteRaises : Obligations.FetchOfAnInaccessibleByteRaises := by
  intro s hs haligned hlast hbyte
  have hany : ((List.range 4).any fun i => !accessible s.params (s.pc.toNat + i)) = true := by
    simpa using hbyte
  have hfetch : fetch s = .error (.raise (.storageFault s.pc s.pc)) := by
    rw [fetch, if_neg (not_not.2 haligned), if_neg hlast, if_pos hany]
  exact step_of_fetch_error hs hfetch

/-! ### A word placed at `pc` -/

theorem Fetchable.placeWord {s : State} (h : Fetchable s) (w : InstrWord) :
    Fetchable (placeWord s w) :=
  ⟨h.aligned, h.notLast, h.allBytes⟩

/-- The bytes placed are the bytes of the word. -/
theorem placeWord_bytesAt {s : State} (hmem : s.mem.wf) (w : InstrWord) :
    (placeWord s w).mem.bytesAt (placeWord s w).pc.toNat 4 = bytesOfWord s.le w := by
  have hlen : (bytesOfWord s.le w).length = 4 := by cases s.le <;> rfl
  exact hlen ▸ Memory.bytesAt_writeBytes (bytesOfWord s.le w) hmem.1

/-- A word with all its 32 bits given is placed as it is. -/
theorem withFetchWord_toNat (s : State) (w : InstrWord) :
    s.withFetchWord 32 w.toNat = placeWord s w := by
  rw [State.withFetchWord, Nat.mod_eq_of_lt w.isLt, BitVec.ofNat_toNat, BitVec.setWidth_eq]

/-- Settles O41: the word fetched is the word placed, and it decodes to the instruction encoded. -/
theorem placedInstructionIsTheOneThatRuns : Obligations.PlacedInstructionIsTheOneThatRuns := by
  intro s i hmem hs haligned hlast haccess
  have hfetch : Fetchable s := ⟨haligned, hlast, haccess⟩
  have hword := storageValue_of_bytesOfWord (placeWord_bytesAt hmem (encode i))
  rw [withFetchWord_toNat]
  refine step_of_decoded (s := placeWord s (encode i)) hs (hfetch.placeWord _) ?_
  rw [placeWord_le, hword]
  exact decodeOfEncodeIsIdentity i

end Sys2Proof.Machine
end

section
/-! SUPPORT. What a step that answers a next state has done (R70, R79, R200), and by induction what `k` steps
have; and with them the statements about the invariant, about faults and about runs. -/

namespace Sys2Proof.Machine

/-! ### A step that answers a next state -/

/-- `t` lies `k` instructions behind `s`, with no wrap (R79), over the same mode (R24), storage (R46) and
parameters (R84). -/
structure StraightTo (k : Nat) (s t : State) : Prop where
  pc     : t.pc.toNat = s.pc.toNat + 4 * k
  le     : t.le = s.le
  mem    : t.mem = s.mem
  params : t.params = s.params

theorem StraightTo.refl (s : State) : StraightTo 0 s s := ⟨rfl, rfl, rfl, rfl⟩

theorem StraightTo.trans {j k : Nat} {s t u : State} (h : StraightTo j s t)
    (h' : StraightTo k t u) : StraightTo (j + k) s u where
  pc := by rw [h'.pc, h.pc]; omega
  le := h'.le.trans h.le
  mem := h'.mem.trans h.mem
  params := h'.params.trans h.params

section
variable {s t : State}

/-- Fetch gives a word, or stops at the state as it is; only an inaccessible byte raises. -/
theorem fetch_stop_or_fetchable (s : State) :
    Fetchable s ∨ (∃ r, fetch s = .error (.refuse r)) ∨
      fetch s = .error (.raise (.storageFault s.pc s.pc)) := by
  obtain ⟨-, e⟩ | ⟨-, e⟩ | ⟨-, -, -, e⟩ | ⟨haligned, hlast, hbytes, -⟩ := fetch_cases s
  · exact .inr (.inl ⟨_, e⟩)
  · exact .inr (.inl ⟨_, e⟩)
  · exact .inr (.inr e)
  · exact .inl ⟨haligned, hlast, hbytes⟩

/-- A step from a state without a fault runs an instruction, is refused, or raises in the fetch. -/
theorem step_cases (hs : s.fault = none) :
    (Fetchable s ∧ ∃ i, step s = exec i s) ∨ (∃ r, step s = .refused r) ∨
      step s = .next { s with fault := some (.storageFault s.pc s.pc) } := by
  obtain hfetch | ⟨r, e⟩ | e := fetch_stop_or_fetchable s
  · cases hi : decodeWord (storageValue s.le s.mem s.pc.toNat 4) with
    | ok i => exact .inl ⟨hfetch, i, step_of_decoded hs hfetch hi⟩
    | error e => exact .inr (.inl ⟨_, step_of_undecoded hs hfetch hi⟩)
  · exact .inr (.inl ⟨r, step_of_fetch_error hs e⟩)
  · exact .inr (.inr (step_of_fetch_error hs e))

/-- No step from a state without a fault answers a record. -/
theorem step_ne_fault (hs : s.fault = none) (f : Fault) : step s ≠ .fault f := by
  intro h
  obtain ⟨-, i, e⟩ | ⟨r, e⟩ | e := step_cases hs
  · obtain ⟨t, hr, -⟩ | ⟨g, -, hr⟩ | hr := exec_outcome i s <;> cases (h.symm.trans e).trans hr
  · cases h.symm.trans e
  · cases h.symm.trans e

/-- Only a state without a fault has a next state. -/
theorem fault_eq_none_of_step (h : step s = .next t) : s.fault = none := by
  cases hs : s.fault with
  | none => rfl
  | some f => cases h.symm.trans (step_of_fault hs)

/-- An instruction that completes where it could be fetched advances by one instruction, with no wrap: the
last word of storage, where it would, is not fetched (R23). -/
theorem OnlyChanged.straightTo {ws : List Reg} (hfetch : Fetchable s) (hmem : t.mem = s.mem)
    (h : OnlyChanged s t ws) : StraightTo 1 s t where
  pc := by
    have haligned := hfetch.aligned
    have hlast := hfetch.notLast
    rw [h.pc]
    bv_omega
  le := h.le
  mem := hmem
  params := h.params

/-- A step that answers a next state has advanced by one instruction, or has raised and changed nothing
but the fault status. -/
theorem step_advanced_or_raised (h : step s = .next t) :
    (t.fault = none ∧ StraightTo 1 s t) ∨
    ∃ f : Fault, f.pc = s.pc ∧ t = { s with fault := some f } := by
  have hs := fault_eq_none_of_step h
  obtain ⟨hfetch, i, e⟩ | ⟨r, e⟩ | e := step_cases hs
  · obtain ⟨hmem, hframe⟩ | hraise :=
      execCompletesOrRaisesAndNothingElse i s t (e.symm.trans h)
    · exact .inl ⟨hframe.fault.trans hs, hframe.straightTo hfetch hmem⟩
    · exact .inr hraise
  · cases h.symm.trans e
  · exact .inr ⟨_, rfl, Host.Outcome.next.inj (h.symm.trans e)⟩

/-- `Alignment` without an address is raised in Little-Endian mode alone (R131, R203). -/
theorem step_alignment_little {pc : Word} (h : step s = .next t)
    (ht : t.fault = some (.alignment pc none)) : s.le = true := by
  have hs := fault_eq_none_of_step h
  obtain ⟨-, i, e⟩ | ⟨r, e⟩ | e := step_cases hs
  · obtain ⟨-, -, -, hle⟩ := raisedFaultsHaveTheirCause i s t _ hs (e.symm.trans h) ht
    exact hle
  · cases h.symm.trans e
  · cases h.symm.trans e
    cases ht

end

/-- Settles O47: a step that advances leaves storage alone and `pc` a multiple of 4; one that raises keeps
both, and its record names the instruction and has its cause. -/
theorem stepKeepsTheInvariant : Obligations.StepKeepsTheInvariant := by
  intro s t hinv h
  obtain ⟨ht, hrun⟩ | ⟨f, hpc, rfl⟩ := step_advanced_or_raised h
  · exact {
      memWf := hrun.mem ▸ hinv.memWf
      pcAligned := by
        have haligned := hinv.pcAligned
        rw [hrun.pc]
        omega
      faultPc := fun f hf => nomatch ht.symm.trans hf
      alignmentLE := fun pc hf => nomatch ht.symm.trans hf }
  · exact {
      memWf := hinv.memWf
      pcAligned := hinv.pcAligned
      faultPc := fun g hg => Option.some.inj hg ▸ hpc
      alignmentLE := fun _ hg => (step_alignment_little h hg : s.le = true) }

/-- Settles O46: storage is empty, `pc` is 0 and there is no fault. -/
theorem resetSatisfiesTheInvariant : Obligations.ResetSatisfiesTheInvariant where
  memWf := by decide
  pcAligned := rfl
  faultPc _ h := nomatch h
  alignmentLE _ h := nomatch h

/-! ### Runs -/

section
variable {s t : State} {endPc : Word}

/-- A run from a state that holds a fault is terminal, whatever its end and length (R253). -/
theorem runTo_of_fault (k : Nat) (h : s.fault ≠ none) : runTo endPc k s = .terminal s := by
  cases k <;> rw [runTo, if_pos h]

theorem runTo_of_end (k : Nat) (hs : s.fault = none) (h : s.pc = endPc) :
    runTo endPc k s = .final s := by
  cases k <;> rw [runTo, if_neg (not_not.2 hs), if_pos h]

theorem runTo_succ_of_next (k : Nat) (hne : s.pc ≠ endPc) (h : step s = .next t) :
    runTo endPc (k + 1) s = runTo endPc k t := by
  rw [runTo, if_neg (not_not.2 (fault_eq_none_of_step h)), if_neg hne]
  simp only [h]

theorem runTo_succ_of_refused {r : Refusal} (k : Nat) (hs : s.fault = none) (hne : s.pc ≠ endPc)
    (h : step s = .refused r) : runTo endPc (k + 1) s = .refused r := by
  rw [runTo, if_neg (not_not.2 hs), if_neg hne]
  simp only [h]

theorem stepN_succ_of_next (k : Nat) (h : step s = .next t) : stepN (k + 1) s = stepN k t := by
  simp only [stepN, h]

theorem stepN_succ_eq_next {k : Nat} {u : State} (h : stepN (k + 1) s = .next u) :
    ∃ t, step s = .next t ∧ stepN k t = .next u := by
  cases ht : step s with
  | next t => exact ⟨t, rfl, stepN_succ_of_next k ht ▸ h⟩
  | fault f => simp [stepN, ht] at h
  | refused r => simp [stepN, ht] at h

/-- Steps that end without a fault have started without one: no step clears a fault (R26, R200). -/
theorem fault_eq_none_of_stepN {k : Nat} (h : stepN k s = .next t) (ht : t.fault = none) :
    s.fault = none := by
  cases k with
  | zero => exact Host.Outcome.next.inj h ▸ ht
  | succ k =>
    obtain ⟨u, hu, -⟩ := stepN_succ_eq_next h
    exact fault_eq_none_of_step hu

/-- A step to a state without a fault advances by one instruction. -/
theorem step_straightTo (h : step s = .next t) (ht : t.fault = none) : StraightTo 1 s t := by
  obtain ⟨-, hrun⟩ | ⟨f, -, rfl⟩ := step_advanced_or_raised h
  · exact hrun
  · cases ht

/-- `k` steps to a state without a fault advance by `k` instructions. -/
theorem stepN_straightTo {k : Nat} (h : stepN k s = .next t) (ht : t.fault = none) :
    StraightTo k s t := by
  induction k generalizing s with
  | zero => exact Host.Outcome.next.inj h ▸ .refl s
  | succ k ih =>
    obtain ⟨u, hu, hrest⟩ := stepN_succ_eq_next h
    exact Nat.add_comm 1 k ▸
      (step_straightTo hu (fault_eq_none_of_stepN hrest ht)).trans (ih hrest)

end

/-- Settles O45: of the two ends of a step the one that leaves a record. -/
theorem faultsArePreciseAndTerminal : Obligations.FaultsArePreciseAndTerminal := by
  intro s t f _ h hf
  obtain ⟨ht, -⟩ | ⟨g, hpc, rfl⟩ := step_advanced_or_raised h
  · cases ht.symm.trans hf
  · obtain rfl := Option.some.inj hf
    exact ⟨rfl, hpc, step_of_fault rfl, fun _ k => runTo_of_fault k (Option.some_ne_none g)⟩

/-- Settles O48: the steps one after another. -/
theorem runIsAStraightLine : Obligations.RunIsAStraightLine := by
  intro k s t h ht
  obtain ⟨hpc, hle, hmem, hparams⟩ := stepN_straightTo h ht
  exact ⟨hpc, hle, hmem, hparams⟩

/-! ### The run of a launched program -/

/-- The ways in which a run of exactly `k` instructions from `s` to `endPc` may stand (R253). -/
inductive EndsWithin (endPc : Word) (k : Nat) (s : State) : RunEnd → Prop
  | final {t : State} (hfault : t.fault = none) (hpc : t.pc = endPc) (hsteps : stepN k s = .next t) :
      EndsWithin endPc k s (.final t)
  | terminal {t : State} (hfault : t.fault ≠ none) : EndsWithin endPc k s (.terminal t)
  | refused (r : Refusal) : EndsWithin endPc k s (.refused r)

/-- A run whose end lies `k` instructions ahead ends within `k` steps. -/
theorem runTo_endsWithin {endPc : Word} (k : Nat) {s : State} (hs : s.fault = none)
    (hend : endPc.toNat = s.pc.toNat + 4 * k) : EndsWithin endPc k s (runTo endPc k s) := by
  induction k generalizing s with
  | zero =>
    have hpc : s.pc = endPc := BitVec.eq_of_toNat_eq hend.symm
    rw [runTo_of_end 0 hs hpc]
    exact .final hs hpc rfl
  | succ k ih =>
    have hne : s.pc ≠ endPc := by
      rintro rfl
      omega
    cases h : step s with
    | fault f => exact absurd h (step_ne_fault hs f)
    | refused r =>
      rw [runTo_succ_of_refused k hs hne h]
      exact .refused r
    | next t =>
      rw [runTo_succ_of_next k hne h]
      obtain ⟨ht, hrun⟩ | ⟨f, -, rfl⟩ := step_advanced_or_raised h
      · have hrest : endPc.toNat = t.pc.toNat + 4 * k := by
          rw [hend, hrun.pc]
          omega
        have hih := ih ht hrest
        generalize runTo endPc k t = e at hih
        cases hih with
        | final hfault hpc hsteps =>
          exact .final hfault hpc ((stepN_succ_of_next k h).trans hsteps)
        | terminal hfault => exact .terminal hfault
        | refused r => exact .refused r
      · rw [runTo_of_fault k (Option.some_ne_none f)]
        exact .terminal (Option.some_ne_none f)

/-- Settles O49: the end of the program is its length ahead of `pc`, and below the top of storage. -/
theorem launchedProgramEndsWithinItsLength : Obligations.LaunchedProgramEndsWithinItsLength := by
  intro s base program hlaunch
  have hend : (BitVec.ofNat 64 (base + 4 * program.length)).toNat =
      s.pc.toNat + 4 * program.length := by
    have hrange := hlaunch.textInRange
    rw [hlaunch.pcAtBase, BitVec.toNat_ofNat, Nat.mod_eq_of_lt (by omega)]
  have hrun := runTo_endsWithin program.length hlaunch.noFault hend
  generalize runTo _ program.length s = e at hrun ⊢
  cases hrun with
  | final hfault hpc hsteps => exact ⟨hfault, hpc, hsteps⟩
  | terminal hfault => exact hfault
  | refused r => trivial

/-- Each word of a launched program can be fetched when the run comes to it, and is the word fetched. -/
theorem LaunchPremises.fetch_word {s t : State} {base : Nat} {program : List InstrWord}
    (hlaunch : LaunchPremises s base program) {k : Nat} (hk : k < program.length)
    (hrun : StraightTo k s t) :
    Fetchable t ∧ storageValue t.le t.mem t.pc.toNat 4 = program[k] := by
  have hpc : t.pc.toNat = base + 4 * k := by rw [hrun.pc, hlaunch.pcAtBase]
  have haligned := hlaunch.pcAligned
  have hrange := hlaunch.textInRange
  refine ⟨⟨by omega, by omega, fun j hj => ?_⟩, ?_⟩
  · rw [hrun.params, hpc, Nat.add_assoc]
    exact hlaunch.textAccessible _ (by omega)
  · rw [hrun.le, hrun.mem, hpc]
    exact storageValue_of_bytesOfWord (hlaunch.textPresent k hk)

/-- Settles O50: the run is a straight line over storage that keeps the text. -/
theorem launchedProgramRunsItsOwnWords : Obligations.LaunchedProgramRunsItsOwnWords := by
  intro s base program hlaunch k hk t i h ht hi
  obtain ⟨hfetch, hword⟩ := hlaunch.fetch_word hk (stepN_straightTo h ht)
  exact step_of_decoded ht hfetch (hword ▸ hi)

end Sys2Proof.Machine
end
